-- ==== Sys2Proof/Word.lean ====
section
/-! DEFINITION. The word of the machine and the plain data built from it (00_scope.md R7 to R9, 20_memory.md R50). -/
namespace Sys2Proof

/-- A register value, an address or a memory word: 16 bits, arithmetic mod 2^16 (R9). -/
abbrev Word := BitVec 16

/-- The number of a general register, R0 to R7 (R20, R88). -/
abbrev Reg := Fin 8

/-- The general register file: eight words, none of them hardwired (R20). -/
abbrev RegFile := Vector Word 8

/-- One memory word at a word address. The address unit is the 16-bit word (R50); log entry 10. -/
abbrev Cell := Nat × Word

/-- The listed words of memory, in the canonical form `Machine.Memory.wf`. -/
abbrev Memory := List Cell

end Sys2Proof
end

