-- ==== Sys2Proof/Syntax.lean ====
section
/-! DEFINITION. The instructions: one constructor per row of spec/opcode_table.json (30_encoding.md R89). -/
namespace Sys2Proof

/-- One instruction with its decoded fields (R72). A don't-care bit is no field (R91), but for RTI and RES, whose low
twelve bits are part of the word that halt_reason records (R251; log entry 8). -/
inductive Instr where
  /-- ADD DR, SR1, SR2 (R130) -/
  | addReg (dr sr1 sr2 : Reg)
  /-- ADD DR, SR1, #imm5 (R131) -/
  | addImm (dr sr1 : Reg) (imm5 : BitVec 5)
  /-- AND DR, SR1, SR2 (R132) -/
  | andReg (dr sr1 sr2 : Reg)
  /-- AND DR, SR1, #imm5 (R133) -/
  | andImm (dr sr1 : Reg) (imm5 : BitVec 5)
  /-- NOT DR, SR1 (R134) -/
  | not (dr sr1 : Reg)
  /-- BR with the condition mask nzp, aligned with cond (R152, R76) -/
  | br (nzp : BitVec 3) (off9 : BitVec 9)
  /-- JMP BaseR (R150) -/
  | jmp (base : Reg)
  /-- RET, the name of JMP R7 (R151; log entry 7) -/
  | ret
  /-- JSR PCoffset11 (R210) -/
  | jsr (off11 : BitVec 11)
  /-- JSRR BaseR (R211) -/
  | jsrr (base : Reg)
  /-- LD DR, PCoffset9 (R170) -/
  | ld (dr : Reg) (off9 : BitVec 9)
  /-- LDI DR, PCoffset9 (R171) -/
  | ldi (dr : Reg) (off9 : BitVec 9)
  /-- LDR DR, BaseR, offset6 (R172) -/
  | ldr (dr base : Reg) (off6 : BitVec 6)
  /-- LEA DR, PCoffset9 (R173) -/
  | lea (dr : Reg) (off9 : BitVec 9)
  /-- ST SR, PCoffset9 (R190) -/
  | st (sr : Reg) (off9 : BitVec 9)
  /-- STI SR, PCoffset9 (R191) -/
  | sti (sr : Reg) (off9 : BitVec 9)
  /-- STR SR, BaseR, offset6 (R192) -/
  | str (sr base : Reg) (off6 : BitVec 6)
  /-- TRAP trapvect8 (R230) -/
  | trap (vect8 : BitVec 8)
  /-- RTI, with the word's low twelve bits (R235) -/
  | rti (low12 : BitVec 12)
  /-- RES, with the word's low twelve bits (R236) -/
  | res (low12 : BitVec 12)
  deriving DecidableEq, Repr

end Sys2Proof
end

