-- ==== Sys2Proof/WellFormed.lean ====
section
/-! DEFINITION. Which instructions a word can stand for. The types bound every field, so one check is left. -/
namespace Sys2Proof

/-- The word of JMP with BaseR = 7 is the row RET of the opcode table (R151), so the form `jmp 7` names no word of its
own (log entry 7). Every other instruction is well formed: all register numbers are legal in every field (R88). -/
def wellFormed : Instr → Bool
  | .jmp base => base ≠ 7
  | .addReg _ _ _ | .addImm _ _ _ | .andReg _ _ _ | .andImm _ _ _ | .not _ _ => true
  | .br _ _ | .ret | .jsr _ | .jsrr _ => true
  | .ld _ _ | .ldi _ _ | .ldr _ _ _ | .lea _ _ => true
  | .st _ _ | .sti _ _ | .str _ _ _ => true
  | .trap _ | .rti _ | .res _ => true

end Sys2Proof
end

