-- ==== Sys2Proof/Decode.lean ====
section
/-! DEFINITION. The decoder, total on the 65536 words (30_encoding.md R71, R72, R89 to R91), the encoder written from the
same formats (R73 to R83), and the opcode table as rows of match and mask. -/
namespace Sys2Proof

/-- `w[lo+n-1 : lo]`, the field of `n` bits from bit `lo` up (R8). -/
def bits (w : Word) (lo n : Nat) : BitVec n := w.extractLsb' lo n

/-- The 3-bit register field whose lowest bit is `lo` (R88). -/
def regField (w : Word) (lo : Nat) : Reg := (bits w lo 3).toFin

/-- The sixteen values of the opcode field, by mnemonic (R89). -/
inductive Opcode where
  | br | add | ld | st | jsr | and | ldr | str | rti | not | ldi | sti | jmp | res | lea | trap
  deriving DecidableEq, Repr

/-- The opcode map in numeric order, 0x0 to 0xF (R89). -/
def opcodeMap : Vector Opcode 16 :=
  #v[.br, .add, .ld, .st, .jsr, .and, .ldr, .str, .rti, .not, .ldi, .sti, .jmp, .res, .lea, .trap]

/-- The opcode of a word: ir[15:12] (R71). -/
def opcodeOf (w : Word) : Opcode := opcodeMap[(bits w 12 4).toFin]

/-- DECODE (R90, R113, R114): the opcode selects the format, and for ADD, AND and JSR/JSRR one bit the sub-form (R84,
R85). No word is rejected; the don't-care bits are not read (R91). -/
def decode (w : Word) : Instr :=
  match opcodeOf w with
  | .br => .br (bits w 9 3) (bits w 0 9)
  | .add =>
    if w.getLsbD 5 then .addImm (regField w 9) (regField w 6) (bits w 0 5)
    else .addReg (regField w 9) (regField w 6) (regField w 0)
  | .ld => .ld (regField w 9) (bits w 0 9)
  | .st => .st (regField w 9) (bits w 0 9)
  | .jsr => if w.getLsbD 11 then .jsr (bits w 0 11) else .jsrr (regField w 6)
  | .and =>
    if w.getLsbD 5 then .andImm (regField w 9) (regField w 6) (bits w 0 5)
    else .andReg (regField w 9) (regField w 6) (regField w 0)
  | .ldr => .ldr (regField w 9) (regField w 6) (bits w 0 6)
  | .str => .str (regField w 9) (regField w 6) (bits w 0 6)
  | .rti => .rti (bits w 0 12)
  | .not => .not (regField w 9) (regField w 6)
  | .ldi => .ldi (regField w 9) (bits w 0 9)
  | .sti => .sti (regField w 9) (bits w 0 9)
  | .jmp => if regField w 6 = 7 then .ret else .jmp (regField w 6)
  | .res => .res (bits w 0 12)
  | .lea => .lea (regField w 9) (bits w 0 9)
  | .trap => .trap (bits w 0 8)

/-- The three bits of a register number. -/
def regBits (r : Reg) : BitVec 3 := BitVec.ofFin r

/-- A field of `n` bits put in a word with its lowest bit at `lo`, zeros elsewhere. -/
def place {n : Nat} (f : BitVec n) (lo : Nat) : Word := f.setWidth 16 <<< lo

/-- A word of format NONE (R83): the opcode over the low twelve bits. -/
def noneWord (op : BitVec 4) (low12 : BitVec 12) : Word := place op 12 ||| place low12 0

/-- A word whose opcode is `op`, with a register number in bits 11:9, DR or SR (R72). -/
def opRegWord (op : BitVec 4) (r : Reg) : Word := place op 12 ||| place (regBits r) 9

/-- ENCODE: the word of an instruction, with the canonical value in every don't-care bit (R73 to R83). -/
def encode : Instr → Word
  | .addReg dr sr1 sr2 => opRegWord 0x1 dr ||| place (regBits sr1) 6 ||| place 0#1 5 ||| place (regBits sr2) 0
  | .addImm dr sr1 imm5 => opRegWord 0x1 dr ||| place (regBits sr1) 6 ||| place 1#1 5 ||| place imm5 0
  | .andReg dr sr1 sr2 => opRegWord 0x5 dr ||| place (regBits sr1) 6 ||| place 0#1 5 ||| place (regBits sr2) 0
  | .andImm dr sr1 imm5 => opRegWord 0x5 dr ||| place (regBits sr1) 6 ||| place 1#1 5 ||| place imm5 0
  | .not dr sr1 => opRegWord 0x9 dr ||| place (regBits sr1) 6 ||| place 0x3F#6 0
  | .br nzp off9 => place 0x0#4 12 ||| place nzp 9 ||| place off9 0
  | .jmp base => place 0xC#4 12 ||| place (regBits base) 6
  | .ret => place 0xC#4 12 ||| place (regBits 7) 6
  | .jsr off11 => place 0x4#4 12 ||| place 1#1 11 ||| place off11 0
  | .jsrr base => place 0x4#4 12 ||| place 0#1 11 ||| place (regBits base) 6
  | .ld dr off9 => opRegWord 0x2 dr ||| place off9 0
  | .ldi dr off9 => opRegWord 0xA dr ||| place off9 0
  | .ldr dr base off6 => opRegWord 0x6 dr ||| place (regBits base) 6 ||| place off6 0
  | .lea dr off9 => opRegWord 0xE dr ||| place off9 0
  | .st sr off9 => opRegWord 0x3 sr ||| place off9 0
  | .sti sr off9 => opRegWord 0xB sr ||| place off9 0
  | .str sr base off6 => opRegWord 0x7 sr ||| place (regBits base) 6 ||| place off6 0
  | .trap vect8 => place 0xF#4 12 ||| place vect8 0
  | .rti low12 => noneWord 0x8 low12
  | .res low12 => noneWord 0xD low12

/-- A row of the opcode table: a word stands for the row when its masked bits equal `pattern`. `care` marks the bits
the decoder reads, the mask and the operand fields; the others are the don't-care bits of the format (R91). -/
structure Row where
  mnemonic : String
  pattern : Word
  mask : Word
  care : Word
  deriving DecidableEq, Repr

/-- Whether a word stands for a row. -/
def Row.matches (r : Row) (w : Word) : Bool := w &&& r.mask == r.pattern

/-- The row of spec/opcode_table.json an instruction belongs to (R89; RTI and RES record all sixteen bits, R251). -/
def rowOf : Instr → Row
  | .addReg _ _ _ => ⟨"ADD", 0x1000, 0xF020, 0xFFE7⟩
  | .addImm _ _ _ => ⟨"ADD", 0x1020, 0xF020, 0xFFFF⟩
  | .andReg _ _ _ => ⟨"AND", 0x5000, 0xF020, 0xFFE7⟩
  | .andImm _ _ _ => ⟨"AND", 0x5020, 0xF020, 0xFFFF⟩
  | .not _ _ => ⟨"NOT", 0x9000, 0xF000, 0xFFC0⟩
  | .br _ _ => ⟨"BR", 0x0000, 0xF000, 0xFFFF⟩
  | .jmp _ => ⟨"JMP", 0xC000, 0xF000, 0xF1C0⟩
  | .ret => ⟨"RET", 0xC1C0, 0xF1C0, 0xF1C0⟩
  | .jsr _ => ⟨"JSR", 0x4800, 0xF800, 0xFFFF⟩
  | .jsrr _ => ⟨"JSRR", 0x4000, 0xF800, 0xF9C0⟩
  | .ld _ _ => ⟨"LD", 0x2000, 0xF000, 0xFFFF⟩
  | .ldi _ _ => ⟨"LDI", 0xA000, 0xF000, 0xFFFF⟩
  | .ldr _ _ _ => ⟨"LDR", 0x6000, 0xF000, 0xFFFF⟩
  | .lea _ _ => ⟨"LEA", 0xE000, 0xF000, 0xFFFF⟩
  | .st _ _ => ⟨"ST", 0x3000, 0xF000, 0xFFFF⟩
  | .sti _ _ => ⟨"STI", 0xB000, 0xF000, 0xFFFF⟩
  | .str _ _ _ => ⟨"STR", 0x7000, 0xF000, 0xFFFF⟩
  | .trap _ => ⟨"TRAP", 0xF000, 0xF000, 0xF0FF⟩
  | .rti _ => ⟨"RTI", 0x8000, 0xF000, 0xFFFF⟩
  | .res _ => ⟨"RES", 0xD000, 0xF000, 0xFFFF⟩

/-- One instruction of each row but RET, whose words are words of JMP (R151), in the order of the opcode table. -/
def coreRows : List Row :=
  [rowOf (.addReg 0 0 0), rowOf (.addImm 0 0 0), rowOf (.andReg 0 0 0), rowOf (.andImm 0 0 0), rowOf (.not 0 0),
    rowOf (.br 0 0), rowOf (.jmp 0), rowOf (.jsr 0), rowOf (.jsrr 0)]
  ++ [rowOf (.ld 0 0), rowOf (.ldi 0 0), rowOf (.ldr 0 0 0), rowOf (.lea 0 0), rowOf (.st 0 0), rowOf (.sti 0 0),
    rowOf (.str 0 0 0), rowOf (.trap 0), rowOf (.rti 0), rowOf (.res 0)]

/-- The word of an instruction whose bits, `nbits` of them, are `w`; the bits above are 0. -/
def tableWord (nbits w : Nat) : Word := BitVec.ofNat 16 (w % 2 ^ nbits)

/-- What the decoder reads from an instruction of `nbits` bits. Every instruction is one 16-bit word (R70), so a longer
one is none of this machine's. -/
def decodeTableWord (nbits w : Nat) : Option Instr :=
  if nbits ≤ 16 then some (decode (tableWord nbits w)) else none

end Sys2Proof
end

