-- ==== Sys2Proof/Config.lean ====
section
/-! DEFINITION. What the spec leaves to a parameter: the launch parameters (00_scope.md R7, 10_state.md R33) and the
trap service's outcome (46_trap_unsupported.md R231, R232). -/
namespace Sys2Proof

/-- The three condition flags, of which at most one is set (R26). -/
inductive Flag where
  | pos
  | zro
  | neg
  deriving DecidableEq, Repr, Inhabited

/-- What a launch fixes: INIT_GPR, INIT_COND (no flag or one flag: 0b000, 0b001, 0b010, 0b100), ENTRY_PC and
LOAD_IMAGE, the words the loader writes, in order (R33, R283, R284). -/
structure LaunchParams where
  initGpr : RegFile
  initCond : Option Flag
  entryPc : Word
  image : List (Word × Word)
  deriving DecidableEq, Repr

/-- One outcome (halt, g', c') of the trap service. It can say nothing of `pc` or memory, which the service leaves
unchanged, and c' is one flag or, as `none`, the unchanged `cond` (R232). -/
structure TrapOutcome where
  halt : Bool
  regs : RegFile
  cond : Option Flag
  deriving DecidableEq, Repr, Inhabited

/-- What the trap service sees: the core's state after the fetch-time increment (R231). -/
structure TrapView where
  regs : RegFile
  pc : Word
  cond : BitVec 3
  mem : Memory
  deriving DecidableEq, Repr

/-- FREE VALUE (log entries 5 and 6): the outcome the trap service picks at its call number `n`, for a vector and the
state it sees. TRAP_SERVICE is a parameter of the model (R231, D10), so nothing here says what it is. -/
opaque Config.trapOutcome : (n : Nat) → (vect8 : BitVec 8) → TrapView → TrapOutcome

/-- DESIGN CHOICE (log entry 1): R0..R7 in `State.reset`. The spec gives none (INIT_GPR, D5). -/
def Config.resetGpr : RegFile := Vector.replicate 8 0

/-- DESIGN CHOICE (log entry 2): no flag set in `State.reset`. The spec gives none (INIT_COND, D6). -/
def Config.resetCond : BitVec 3 := 0

/-- DESIGN CHOICE (log entry 3): the entry address in `State.reset`, the spec's "conventionally 0x3000" (R283). -/
def Config.resetPc : Word := 0x3000

end Sys2Proof
end

