-- ==== Sys2Proof/Machine/State.lean ====
section
/-! DEFINITION. The architectural state (10_state.md R20 to R34), the reasons a step can stop, and the state after reset. -/
namespace Sys2Proof.Machine

/-- The two states of the execute loop (R30). -/
inductive RunState where
  | running
  | halted
  deriving DecidableEq, Repr

/-- What ended the run (R30, R251): a halting trap with its vector, or an unsupported opcode with the opcode, the whole
word and the address it was fetched from. -/
inductive HaltReason where
  | trapHalt (vect8 : BitVec 8)
  | unsupported (op : BitVec 4) (word : Word) (address : Word)
  deriving DecidableEq, Repr

/-- The trap service's answer to one call: one outcome of the relation TRAP_SERVICE, or that it offers none (R231). -/
inductive TrapAnswer where
  | outcome (o : TrapOutcome)
  | noOutcome
  deriving DecidableEq, Repr

/-- The core's state: the registers of R20, R23 and R26, the run state and its record (R30), and memory (R50). The last
two fields are the model's own: the answers the trap service is about to give and the number of calls it has taken (log
entry 5). -/
structure State where
  regs : RegFile
  pc : Word
  cond : BitVec 3
  run : RunState
  haltReason : Option HaltReason
  mem : Memory
  svcAnswers : List TrapAnswer
  svcCalls : Nat
  deriving DecidableEq, Repr

/-- Why a step can stop. -/
inductive Fault where
  /-- Raised by `step` when run = HALTED: the core has no step then (R115). Safe: nothing is claimed of a further step. -/
  | halted
  /-- Raised by TRAP when the trap service offers no outcome: "the core is stuck at that TRAP" (R231). Safe. -/
  | trapStuck
  deriving DecidableEq, Repr

/-- Why an instruction has no meaning. No arm of `exec` uses it. -/
inductive Refusal where
  /-- Raised by an arm of `exec` for an instruction not modelled yet. Safe. -/
  | notModelled (mnemonic : String)
  deriving DecidableEq, Repr

/-- What an address that is not listed reads as: the memory is "allocated once at VM start, zeroed" (R280, R33). -/
def Memory.unlisted : Word := 0

/-- The canonical form of memory: addresses strictly rising, each below 65536 (R50), and no entry equal to what an
unlisted address reads as. Equal memories are then equal lists. -/
abbrev Memory.wf (m : Memory) : Prop :=
  m.Pairwise (fun a b => a.1 < b.1) ∧ ∀ c ∈ m, c.1 < 65536 ∧ c.2 ≠ Memory.unlisted

/-- The machine after reset (R33, R280): run is RUNNING, halt_reason is none, memory is zero. R0..R7, cond, pc and the
empty image are the values of log entries 1 to 4, the trap service's fields those of log entry 5. -/
def State.reset : State where
  regs := Config.resetGpr
  pc := Config.resetPc
  cond := Config.resetCond
  run := .running
  haltReason := none
  mem := []
  svcAnswers := []
  svcCalls := 0

end Sys2Proof.Machine
end

