-- ==== Sys2Proof/Machine/Flags.lean ====
section
/-! DEFINITION. The condition flags: their bits (10_state.md R26), the flag updater (R27) and the PSR view (R29). -/
namespace Sys2Proof.Machine

/-- The bit of each flag in `cond` = {N, Z, P}: P is bit 0, Z bit 1, N bit 2 (R26). -/
def flagBits : Flag → BitVec 3
  | .pos => 0b001
  | .zro => 0b010
  | .neg => 0b100

/-- The flag of a value, tested in the order of R27: zero, then bit 15, then positive. -/
def flagOf (v : Word) : Flag :=
  if v = 0 then .zro else if v.getLsbD 15 then .neg else .pos

/-- `setcc(v)`: overwrites `cond` (R27). -/
def State.setcc (v : Word) (s : State) : State := { s with cond := flagBits (flagOf v) }

/-- The 16-bit view of the status register: PSR[2:0] = cond, PSR[15:3] = 0 (R29). -/
def State.psr (s : State) : Word := s.cond.setWidth 16

end Sys2Proof.Machine
end

