-- ==== Sys2Proof/Machine/Ops.lean ====
section
/-! DEFINITION. The named operations over memory (20_memory.md R52, R53), the registers (00_scope.md R11), the register
write port (40_cycle.md R121) and the one exception of the block (60_exceptions.md R251). The block has no return from
an exception: RTI itself raises it (R256). -/
namespace Sys2Proof.Machine

/-- The outcome of an instruction or a step. -/
abbrev Result := Host.Outcome State Fault Refusal

/-- The word listed at an address, or what an unlisted address reads as. -/
def Memory.lookup : Memory → Nat → Word
  | [], _ => Memory.unlisted
  | (a, v) :: m, k => if a = k then v else Memory.lookup m k

/-- `MemRead(a, 16)`: M[a]. It changes nothing and cannot fail (R52). -/
def Memory.read (m : Memory) (a : Word) : Word := Memory.lookup m a.toNat

/-- The memory without an entry at address `k`. -/
def Memory.erase (m : Memory) (k : Nat) : Memory := m.filter (fun c => c.1 ≠ k)

/-- Put an entry in front of the first entry with a higher address. -/
def Memory.insert (k : Nat) (v : Word) : Memory → Memory
  | [] => [(k, v)]
  | c :: m => if k < c.1 then (k, v) :: c :: m else c :: Memory.insert k v m

/-- `MemWrite(a, 16, v)`: M[a] <- v, and nothing else; it cannot fail (R53). Writing what an unlisted address reads as
leaves no entry. -/
def Memory.write (m : Memory) (a : Word) (v : Word) : Memory :=
  if v = Memory.unlisted then Memory.erase m a.toNat else Memory.insert a.toNat v (Memory.erase m a.toNat)

/-- `x[r]` (R11). -/
def State.reg (s : State) (r : Reg) : Word := s.regs[r]

/-- `x[r] <- v` (R11). No register is hardwired (R20). -/
def State.setReg (r : Reg) (v : Word) (s : State) : State := { s with regs := s.regs.set r v }

/-- `pc <- a` (R11). Every 16-bit value is legal (R25). -/
def State.setPc (a : Word) (s : State) : State := { s with pc := a }

/-- The fetch-time increment, mod 2^16 (R112). -/
def State.advance (s : State) : State := s.setPc (s.pc + 1)

/-- LOAD(a) and FETCH(a) of the memory port (R54). -/
def State.load (s : State) (a : Word) : Word := Memory.read s.mem a

/-- STORE(a, v) of the memory port (R54). -/
def State.store (a v : Word) (s : State) : State := { s with mem := Memory.write s.mem a v }

/-- The register write port of the instructions that have a DR: write it, then `setcc` on the value written as the last
action (R28, R121). -/
def State.writeDest (dr : Reg) (v : Word) (s : State) : State := (s.setReg dr v).setcc v

/-- run <- HALTED with its record (R30). -/
def State.haltWith (r : HaltReason) (s : State) : State := { s with run := .halted, haltReason := some r }

/-- `raise UnsupportedOpcode` (R13, R251): HALTED, recording the opcode, the word and the address it was fetched from,
which is pc - 1 after the fetch-time increment. No GPR, cond or memory write. -/
def State.raiseUnsupported (op : BitVec 4) (word : Word) (s : State) : State :=
  s.haltWith (.unsupported op word (s.pc - 1))

end Sys2Proof.Machine
end

