-- ==== Sys2Proof/Machine/Operands.lean ====
section
/-! DEFINITION. Sign extension (00_scope.md R10), the ALU (40_cycle.md R117), the immediate mux (R118) and the address
adder (R119). -/
namespace Sys2Proof.Machine

/-- `sext_N(f)`: the field with its top bit in every higher bit (R10). -/
def sext {n : Nat} (f : BitVec n) : Word := f.signExtend 16

/-- `zext_N(f)`: the field with zeros above it. No instruction of the block applies it (R10). -/
def zext {n : Nat} (f : BitVec n) : Word := f.setWidth 16

/-- The functions of the ALU (R117). -/
inductive AluOp where
  | add
  | and
  | not
  deriving DecidableEq, Repr

/-- The ALU: 16-bit results that wrap, and no flag output (R117). NOT does not read its second operand. -/
def alu : AluOp → Word → Word → Word
  | .add, a, b => a + b
  | .and, a, b => a &&& b
  | .not, a, _ => ~~~a

/-- The second operand of ADD and AND: a register or a sign-extended imm5 (R84, R118). -/
inductive Operand2 where
  | reg (sr2 : Reg)
  | imm (imm5 : BitVec 5)
  deriving DecidableEq, Repr

/-- The immediate mux (R118). -/
def State.operand2 (s : State) : Operand2 → Word
  | .reg sr2 => s.reg sr2
  | .imm imm5 => sext imm5

/-- pc + sext_9(PCoffset9), pc being the incremented pc (R119). -/
def State.pcOff9 (s : State) (off9 : BitVec 9) : Word := s.pc + sext off9

/-- pc + sext_11(PCoffset11) (R119). -/
def State.pcOff11 (s : State) (off11 : BitVec 11) : Word := s.pc + sext off11

/-- x[BaseR] + sext_6(offset6) (R119). -/
def State.baseOff6 (s : State) (base : Reg) (off6 : BitVec 6) : Word := s.reg base + sext off6

/-- The pointer that LDI and STI load first, at pc + sext_9(PCoffset9) (R171, R191). -/
def State.pointer (s : State) (off9 : BitVec 9) : Word := s.load (s.pcOff9 off9)

end Sys2Proof.Machine
end

