-- ==== Sys2Proof/Machine/JumpBranch.lean ====
section
/-! DEFINITION. The jump and branch instructions JMP, RET and BR (42_jump_branch.md R150 to R152). -/
namespace Sys2Proof.Machine

/-- BR's condition: the mask and `cond` share a set bit (R152). -/
def State.branchTaken (s : State) (nzp : BitVec 3) : Bool := nzp &&& s.cond ≠ 0

/-- pc <- x[base], used whole (R150). -/
def jumpThrough (base : Reg) (s : State) : Result := .next (s.setPc (s.reg base))

/-- JMP (R150). -/
def execJmp (base : Reg) (s : State) : Result := jumpThrough base s

/-- RET: pc <- x[7] (R151). -/
def execRet (s : State) : Result := jumpThrough 7 s

/-- BR (R152): the branch target when the condition holds, else pc keeps the incremented value. -/
def execBr (nzp : BitVec 3) (off9 : BitVec 9) (s : State) : Result :=
  .next (if s.branchTaken nzp then s.setPc (s.pcOff9 off9) else s)

end Sys2Proof.Machine
end

