-- ==== Sys2Proof/Machine/Load.lean ====
section
/-! DEFINITION. The load instructions LD, LDI, LDR and LEA (43_load.md R170 to R173). -/
namespace Sys2Proof.Machine

/-- DR <- M[a], with the flags set from the loaded word. -/
def loadFrom (dr : Reg) (a : Word) (s : State) : Result := .next (s.writeDest dr (s.load a))

/-- LD: PC-relative load (R170). -/
def execLd (dr : Reg) (off9 : BitVec 9) (s : State) : Result := loadFrom dr (s.pcOff9 off9) s

/-- LDI: load through the pointer at the PC-relative address (R171). -/
def execLdi (dr : Reg) (off9 : BitVec 9) (s : State) : Result := loadFrom dr (s.pointer off9) s

/-- LDR: base-plus-offset load (R172). -/
def execLdr (dr base : Reg) (off6 : BitVec 6) (s : State) : Result := loadFrom dr (s.baseOff6 base off6) s

/-- LEA: DR <- the PC-relative address, with no memory access; it sets the flags (R173). -/
def execLea (dr : Reg) (off9 : BitVec 9) (s : State) : Result := .next (s.writeDest dr (s.pcOff9 off9))

end Sys2Proof.Machine
end

