-- ==== Sys2Proof/Machine/Operate.lean ====
section
/-! DEFINITION. The operate instructions ADD, AND and NOT (41_operate.md R130 to R134). -/
namespace Sys2Proof.Machine

/-- An operate instruction: the ALU's result goes to DR and sets the flags. Both operands are read first (R14). -/
def operate (op : AluOp) (dr sr1 : Reg) (b : Operand2) (s : State) : Result :=
  .next (s.writeDest dr (alu op (s.reg sr1) (s.operand2 b)))

/-- ADD, register mode (R130). -/
def execAddReg (dr sr1 sr2 : Reg) (s : State) : Result := operate .add dr sr1 (.reg sr2) s

/-- ADD, immediate mode (R131). -/
def execAddImm (dr sr1 : Reg) (imm5 : BitVec 5) (s : State) : Result := operate .add dr sr1 (.imm imm5) s

/-- AND, register mode (R132). -/
def execAndReg (dr sr1 sr2 : Reg) (s : State) : Result := operate .and dr sr1 (.reg sr2) s

/-- AND, immediate mode (R133). -/
def execAndImm (dr sr1 : Reg) (imm5 : BitVec 5) (s : State) : Result := operate .and dr sr1 (.imm imm5) s

/-- NOT (R134). The ALU does not read its second operand. -/
def execNot (dr sr1 : Reg) (s : State) : Result := .next (s.writeDest dr (alu .not (s.reg sr1) 0))

end Sys2Proof.Machine
end

