-- ==== Sys2Proof/Machine/Store.lean ====
section
/-! DEFINITION. The store instructions ST, STI and STR (44_store.md R190 to R192). -/
namespace Sys2Proof.Machine

/-- M[a] <- x[SR]; no register and no flag is written. -/
def storeTo (sr : Reg) (a : Word) (s : State) : Result := .next (s.store a (s.reg sr))

/-- ST: PC-relative store (R190). -/
def execSt (sr : Reg) (off9 : BitVec 9) (s : State) : Result := storeTo sr (s.pcOff9 off9) s

/-- STI: store through the pointer at the PC-relative address, which is loaded first (R191). -/
def execSti (sr : Reg) (off9 : BitVec 9) (s : State) : Result := storeTo sr (s.pointer off9) s

/-- STR: base-plus-offset store (R192). -/
def execStr (sr base : Reg) (off6 : BitVec 6) (s : State) : Result := storeTo sr (s.baseOff6 base off6) s

end Sys2Proof.Machine
end

