-- ==== Sys2Proof/Machine/Subroutine.lean ====
section
/-! DEFINITION. The subroutine calls JSR and JSRR (45_subroutine.md R210, R211). -/
namespace Sys2Proof.Machine

/-- R7 <- the incremented pc, pc <- target. The target is computed before R7 is written (R14, R211), and no flag is
written (R28). -/
def callTo (target : Word) (s : State) : Result := .next ((s.setReg 7 s.pc).setPc target)

/-- JSR: PC-relative call (R210). -/
def execJsr (off11 : BitVec 11) (s : State) : Result := callTo (s.pcOff11 off11) s

/-- JSRR: register-indirect call, through the old x[BaseR] even when BaseR is R7 (R211). -/
def execJsrr (base : Reg) (s : State) : Result := callTo (s.reg base) s

end Sys2Proof.Machine
end

