-- ==== Sys2Proof/Machine/TrapUnsupported.lean ====
section
/-! DEFINITION. TRAP and the unsupported opcodes RTI and RES (46_trap_unsupported.md R230 to R236). -/
namespace Sys2Proof.Machine

/-- What the trap service sees of the core (R231). -/
def State.trapView (s : State) : TrapView := { regs := s.regs, pc := s.pc, cond := s.cond, mem := s.mem }

/-- `TrapCall(v)` (R231): the service's answer to this call, the next one queued in the state, or, with none queued,
the free outcome of Config (log entries 5 and 6). -/
def State.trapCall (s : State) (vect8 : BitVec 8) : TrapAnswer :=
  match s.svcAnswers with
  | a :: _ => a
  | [] => .outcome (Config.trapOutcome s.svcCalls vect8 s.trapView)

/-- The call has been taken: its answer is used up and the next call is another one (log entry 5). -/
def State.callTaken (s : State) : State := { s with svcAnswers := s.svcAnswers.tail, svcCalls := s.svcCalls + 1 }

/-- `cond` after the call: c', or unchanged (R232). -/
def condAfter (c : Option Flag) (old : BitVec 3) : BitVec 3 :=
  match c with
  | some f => flagBits f
  | none => old

/-- x[0..7] <- g' and cond <- c'; `pc` and memory stay (R230, R232). -/
def State.applyOutcome (o : TrapOutcome) (s : State) : State :=
  { s with regs := o.regs, cond := condAfter o.cond s.cond }

/-- TRAP (R230, R233): one call of the service. Its outcome is applied, and then, if it says halt, run <- HALTED with
TrapHalt(vect8). With no outcome the core is stuck (R231). The core itself writes no register, not even R7. -/
def execTrap (vect8 : BitVec 8) (s : State) : Result :=
  match s.trapCall vect8 with
  | .noOutcome => .fault .trapStuck
  | .outcome o =>
    .next (if o.halt then (s.callTaken.applyOutcome o).haltWith (.trapHalt vect8) else s.callTaken.applyOutcome o)

/-- RTI: raise UnsupportedOpcode(0x8, ir, A) (R235). -/
def execRti (low12 : BitVec 12) (s : State) : Result := .next (s.raiseUnsupported 0x8 (noneWord 0x8 low12))

/-- RES: raise UnsupportedOpcode(0xD, ir, A) (R236). -/
def execRes (low12 : BitVec 12) (s : State) : Result := .next (s.raiseUnsupported 0xD (noneWord 0xD low12))

end Sys2Proof.Machine
end

