-- ==== Sys2Proof/Machine/Cycle.lean ====
section
/-! DEFINITION. The parts of the instruction cycle (40_cycle.md R110 to R113). -/
namespace Sys2Proof.Machine

/-- FETCH: the word at `pc`, whole and without fault (R111). -/
def State.fetch (s : State) : Word := s.load s.pc

/-- Fetch, increment pc, decode, dispatch (R110). -/
def cycle (s : State) : Result := exec (decode s.fetch) s.advance

end Sys2Proof.Machine
end

