-- ==== Sys2Proof/Machine/Step.lean ====
section
/-! DEFINITION. The step (40_cycle.md R110, R115), and the placing of a word where the next step fetches. -/
namespace Sys2Proof.Machine

/-- One step executes one instruction. When run = HALTED there is no step (R115; log entry 9). -/
def step (s : State) : Host.Outcome State Fault Refusal :=
  match s.run with
  | .running => cycle s
  | .halted => .fault .halted

/-- `s` with a word stored at `pc`, in a core that runs: the loader's work of placing a program (R284; log entries 4
and 11). -/
def State.withFetchWord (s : State) (nbits w : Nat) : State :=
  { s.store s.pc (tableWord nbits w) with run := .running, haltReason := none }

end Sys2Proof.Machine
end

