-- ==== Sys2Proof/Machine/Launch.lean ====
section
/-! DEFINITION. Launch (70_reset_and_hazards.md R280, R284): a VM made from its launch parameters. -/
namespace Sys2Proof.Machine

/-- The loader's writes, in order, each a `Memory.write` (R284). -/
def Memory.loadImage (m : Memory) (image : List (Word × Word)) : Memory :=
  image.foldl (fun m c => Memory.write m c.1 c.2) m

/-- INIT_COND as bits: no flag, or one (R33). -/
def launchCond (c : Option Flag) : BitVec 3 :=
  match c with
  | some f => flagBits f
  | none => 0

/-- The state before the first step, for any launch parameters (R33): zeroed memory, the image, the entry address,
RUNNING. A trap service is bound as well (R285): `service` is its coming answers (log entry 5). `State.reset` is the
launch of log entries 1 to 5. -/
def State.launch (p : LaunchParams) (service : List TrapAnswer) : State where
  regs := p.initGpr
  pc := p.entryPc
  cond := launchCond p.initCond
  run := .running
  haltReason := none
  mem := Memory.loadImage [] p.image
  svcAnswers := service
  svcCalls := 0

end Sys2Proof.Machine
end

