-- ==== Sys2Proof/Machine/Port.lean ====
section
/-! DEFINITION. The memory port (20_memory.md R54): the transactions each instruction issues, in order (R55). They are a
view of the step for claims about the interface; the step itself does not read them. -/
namespace Sys2Proof.Machine

/-- The three kinds of transaction (R54). -/
inductive Transaction where
  | fetch (a : Word)
  | load (a : Word)
  | store (a v : Word)
  deriving DecidableEq, Repr

/-- The transactions of an instruction after its fetch, in the state after the fetch-time increment (R55). The trap
service's own accesses are outside the block. -/
def dataTransactions (i : Instr) (s : State) : List Transaction :=
  match i with
  | .ld _ off9 => [.load (s.pcOff9 off9)]
  | .ldr _ base off6 => [.load (s.baseOff6 base off6)]
  | .ldi _ off9 => [.load (s.pcOff9 off9), .load (s.pointer off9)]
  | .st sr off9 => [.store (s.pcOff9 off9) (s.reg sr)]
  | .str sr base off6 => [.store (s.baseOff6 base off6) (s.reg sr)]
  | .sti sr off9 => [.load (s.pcOff9 off9), .store (s.pointer off9) (s.reg sr)]
  | .addReg _ _ _ | .addImm _ _ _ | .andReg _ _ _ | .andImm _ _ _ | .not _ _ => []
  | .br _ _ | .jmp _ | .ret | .jsr _ | .jsrr _ | .lea _ _ => []
  | .trap _ | .rti _ | .res _ => []

/-- The transactions of one step: FETCH(A), then the instruction's own (R55). -/
def stepTransactions (s : State) : List Transaction :=
  .fetch s.pc :: dataTransactions (decode s.fetch) s.advance

/-- What a transaction does to memory: a STORE writes its word, a read changes nothing (R52, R53). -/
def Transaction.apply (m : Memory) : Transaction → Memory
  | .store a v => Memory.write m a v
  | .fetch _ | .load _ => m

end Sys2Proof.Machine
end

