-- ==== Sys2Proof/Safety.lean ====
section
/-! DEFINITION. The terms claims use: the invariant of the machine, what "unchanged" means for each kind of state, and
which instructions write what. They are written from the spec's tables, apart from the meanings they are claimed of. -/
namespace Sys2Proof.Machine

/-- At most one flag is set: the values INIT_COND may have and those `setcc` writes (R26, R33). -/
def condLegal (c : BitVec 3) : Prop := c = 0b000 ∨ c = 0b001 ∨ c = 0b010 ∨ c = 0b100

/-- Exactly one flag is set (R26). -/
def condOneHot (c : BitVec 3) : Prop := c = 0b001 ∨ c = 0b010 ∨ c = 0b100

/-- The invariant of every state a run reaches: memory is in canonical form, at most one flag is set (R26), and there is
a halt_reason exactly when run = HALTED (R30). -/
structure State.Inv (s : State) : Prop where
  memWf : Memory.wf s.mem
  condOk : condLegal s.cond
  reasonIffHalted : s.haltReason.isSome = true ↔ s.run = .halted

/-- The condition code of a value, as R27 lists it. -/
def codeOf (v : Word) (c : BitVec 3) : Prop :=
  (v = 0x0000 → c = 0b010) ∧ (v ≠ 0x0000 → v.getLsbD 15 = true → c = 0b100) ∧
    (v ≠ 0x0000 → v.getLsbD 15 = false → c = 0b001)

/-- Every general register keeps its value. -/
def sameRegs (s t : State) : Prop := ∀ r, t.reg r = s.reg r

/-- Every general register but `dr` keeps its value. -/
def sameRegsBut (dr : Reg) (s t : State) : Prop := ∀ r, r ≠ dr → t.reg r = s.reg r

/-- Every word of memory reads as before. -/
def sameMem (s t : State) : Prop := ∀ a, t.load a = s.load a

/-- Every word of memory but the one at `ea` reads as before. -/
def sameMemBut (ea : Word) (s t : State) : Prop := ∀ a, a ≠ ea → t.load a = s.load a

/-- The run state, its record and the trap service's fields are as before. -/
def sameRun (s t : State) : Prop :=
  t.run = s.run ∧ t.haltReason = s.haltReason ∧ t.svcAnswers = s.svcAnswers ∧ t.svcCalls = s.svcCalls

/-- What an instruction with a DR does, and all it does: DR holds `v`, `cond` its code; every other register, pc, memory
and the run state are as before (R121, R24). -/
def writesDest (dr : Reg) (v : Word) (s t : State) : Prop :=
  t.reg dr = v ∧ codeOf v t.cond ∧ sameRegsBut dr s t ∧ t.pc = s.pc ∧ sameMem s t ∧ sameRun s t

/-- What a jump does, and all it does: pc is the target. -/
def jumpsTo (target : Word) (s t : State) : Prop :=
  t.pc = target ∧ sameRegs s t ∧ t.cond = s.cond ∧ sameMem s t ∧ sameRun s t

/-- What a call does, and all it does: pc is the target and R7 the address after the call (R210, R211). -/
def callsTo (target : Word) (s t : State) : Prop :=
  t.pc = target ∧ t.reg 7 = s.pc ∧ sameRegsBut 7 s t ∧ t.cond = s.cond ∧ sameMem s t ∧ sameRun s t

/-- What a store does, and all it does: the word at `ea` is `v`. -/
def storesAt (ea v : Word) (s t : State) : Prop :=
  t.load ea = v ∧ sameMemBut ea s t ∧ sameRegs s t ∧ t.cond = s.cond ∧ t.pc = s.pc ∧ sameRun s t

/-- What a trap call does for one outcome (halt, g', c') of the service, and all it does (R230, R232, R233). -/
def takesOutcome (vect8 : BitVec 8) (o : TrapOutcome) (s t : State) : Prop :=
  (∀ r, t.reg r = o.regs[r]) ∧
    (o.cond = none → t.cond = s.cond) ∧ (o.cond = some .pos → t.cond = 0b001) ∧
    (o.cond = some .zro → t.cond = 0b010) ∧ (o.cond = some .neg → t.cond = 0b100) ∧
    (o.halt = true → t.run = .halted ∧ t.haltReason = some (.trapHalt vect8)) ∧
    (o.halt = false → t.run = s.run ∧ t.haltReason = s.haltReason) ∧
    t.pc = s.pc ∧ sameMem s t

/-- What UnsupportedOpcode does, and all it does: HALTED with its record (R251). -/
def haltsUnsupported (op : BitVec 4) (word address : Word) (s t : State) : Prop :=
  t.run = .halted ∧ t.haltReason = some (.unsupported op word address) ∧ sameRegs s t ∧ t.cond = s.cond ∧
    t.pc = s.pc ∧ sameMem s t ∧ t.svcAnswers = s.svcAnswers ∧ t.svcCalls = s.svcCalls

/-- The register the core's write port writes: DR, R7 for a call, or none (R121, R22). -/
def destOf : Instr → Option Reg
  | .addReg dr _ _ | .addImm dr _ _ | .andReg dr _ _ | .andImm dr _ _ | .not dr _ => some dr
  | .ld dr _ | .ldi dr _ | .ldr dr _ _ | .lea dr _ => some dr
  | .jsr _ | .jsrr _ => some 7
  | .br _ _ | .jmp _ | .ret | .st _ _ | .sti _ _ | .str _ _ _ | .trap _ | .rti _ | .res _ => none

/-- The general registers an instruction reads (R21). -/
def sourcesOf : Instr → List Reg
  | .addReg _ sr1 sr2 | .andReg _ sr1 sr2 => [sr1, sr2]
  | .addImm _ sr1 _ | .andImm _ sr1 _ | .not _ sr1 => [sr1]
  | .jmp base | .jsrr base | .ldr _ base _ => [base]
  | .ret => [7]
  | .st sr _ | .sti sr _ => [sr]
  | .str sr base _ => [sr, base]
  | .br _ _ | .ld _ _ | .ldi _ _ | .lea _ _ | .jsr _ | .trap _ | .rti _ | .res _ => []

/-- The DR of the instructions that write `cond` (R28): ADD, AND, NOT, LD, LDI, LDR and LEA. -/
def flagDest : Instr → Option Reg
  | .addReg dr _ _ | .addImm dr _ _ | .andReg dr _ _ | .andImm dr _ _ | .not dr _ => some dr
  | .ld dr _ | .ldi dr _ | .ldr dr _ _ | .lea dr _ => some dr
  | .jsr _ | .jsrr _ | .br _ _ | .jmp _ | .ret | .st _ _ | .sti _ _ | .str _ _ _ => none
  | .trap _ | .rti _ | .res _ => none

/-- Whether the instruction is TRAP, whose register and flag outcome is the service's (R232). -/
def isTrap : Instr → Bool
  | .trap _ => true
  | .addReg _ _ _ | .addImm _ _ _ | .andReg _ _ _ | .andImm _ _ _ | .not _ _ | .br _ _ | .jmp _ | .ret => false
  | .jsr _ | .jsrr _ | .ld _ _ | .ldi _ _ | .ldr _ _ _ | .lea _ _ | .st _ _ | .sti _ _ | .str _ _ _ => false
  | .rti _ | .res _ => false

/-- Whether the instruction is BR, the only one that reads `cond` (R28). -/
def isBr : Instr → Bool
  | .br _ _ => true
  | .addReg _ _ _ | .addImm _ _ _ | .andReg _ _ _ | .andImm _ _ _ | .not _ _ | .jmp _ | .ret | .trap _ => false
  | .jsr _ | .jsrr _ | .ld _ _ | .ldi _ _ | .ldr _ _ _ | .lea _ _ | .st _ _ | .sti _ _ | .str _ _ _ => false
  | .rti _ | .res _ => false

/-- The address a store instruction stores to, and the word it stores: the store forms are ST, STI and STR (R190 to
R192). -/
def storeOf (i : Instr) (s : State) : Option (Word × Word) :=
  match i with
  | .st sr off9 => some (s.pcOff9 off9, s.reg sr)
  | .sti sr off9 => some (s.load (s.pcOff9 off9), s.reg sr)
  | .str sr base off6 => some (s.baseOff6 base off6, s.reg sr)
  | .addReg _ _ _ | .addImm _ _ _ | .andReg _ _ _ | .andImm _ _ _ | .not _ _ => none
  | .br _ _ | .jmp _ | .ret | .jsr _ | .jsrr _ | .ld _ _ | .ldi _ _ | .ldr _ _ _ | .lea _ _ => none
  | .trap _ | .rti _ | .res _ => none

/-- The control-flow mux (R120): the value of pc at the end of the step, pc being the incremented pc. -/
def pcMux (i : Instr) (s : State) : Word :=
  match i with
  | .br nzp off9 => if nzp &&& s.cond ≠ 0b000 then s.pc + sext off9 else s.pc
  | .jsr off11 => s.pc + sext off11
  | .jmp base | .jsrr base => s.reg base
  | .ret => s.reg 7
  | .addReg _ _ _ | .addImm _ _ _ | .andReg _ _ _ | .andImm _ _ _ | .not _ _ => s.pc
  | .ld _ _ | .ldi _ _ | .ldr _ _ _ | .lea _ _ | .st _ _ | .sti _ _ | .str _ _ _ => s.pc
  | .trap _ | .rti _ | .res _ => s.pc

/-- Two states that agree on everything but memory, and in memory at the addresses the instruction loads from. -/
def agreeOnLoads (i : Instr) (s t : State) : Prop :=
  t.regs = s.regs ∧ t.pc = s.pc ∧ t.cond = s.cond ∧ sameRun s t ∧
    ∀ a, .load a ∈ dataTransactions i s → t.load a = s.load a

/-- The state with another `cond`, for claims about who reads it. -/
def State.withCond (c : BitVec 3) (s : State) : State := { s with cond := c }

end Sys2Proof.Machine
end

