-- ==== Sys2Proof/Certificates/Slice0/Obligations.lean ====
section
/-! DEFINITION. The statements for the provers, in the terms of Safety.lean. In a statement about `exec`, `s` is the
state after the fetch-time increment, so `s.pc` is the address of the next instruction (40_cycle.md R112). -/
open Sys2Proof Sys2Proof.Machine

/-! ## Encoding and decoding -/

/-- Words written out from the spec's encodings (95_test_vectors.md V1 and the examples of R130 to R236). Their opcode
values and field positions are `[from general knowledge, not in source]` (R72, R89). -/
def Obligations.SpecExampleWordsDecode : Prop :=
  decode 0x1283 = .addReg 1 2 3 ∧ decode 0x12BF = .addImm 1 2 0b11111 ∧ decode 0x52A3 = .andImm 1 2 0b00011 ∧
    decode 0x92BF = .not 1 2 ∧ decode 0x03FD = .br 0b001 0x1FD ∧ decode 0xC0C0 = .jmp 3 ∧ decode 0xC1C0 = .ret ∧
    decode 0x4802 = .jsr 2 ∧ decode 0x4080 = .jsrr 2 ∧ decode 0x2604 = .ld 3 4 ∧ decode 0x6440 = .ldr 2 1 0 ∧
    decode 0xE205 = .lea 1 5 ∧ decode 0xB004 = .sti 0 4 ∧ decode 0x7842 = .str 4 1 2 ∧ decode 0xF025 = .trap 0x25 ∧
    decode 0xD123 = .res 0x123

/-- Each row of the opcode table, read with its fields at the positions of R72: a word with the row's fixed bits
decodes to the row's instruction with the fields cut from the word. The numbers and positions are the spec's adoption
(D2, D3). RET has a row and a constructor of its own (log entry 7). -/
def Obligations.DecodeFollowsTheOpcodeTable : Prop :=
  ∀ w : Word,
    let reg (lo : Nat) : Reg := (w.extractLsb' lo 3).toFin
    (w &&& 0xF020 = 0x1000 → decode w = .addReg (reg 9) (reg 6) (reg 0)) ∧
    (w &&& 0xF020 = 0x1020 → decode w = .addImm (reg 9) (reg 6) (w.extractLsb' 0 5)) ∧
    (w &&& 0xF020 = 0x5000 → decode w = .andReg (reg 9) (reg 6) (reg 0)) ∧
    (w &&& 0xF020 = 0x5020 → decode w = .andImm (reg 9) (reg 6) (w.extractLsb' 0 5)) ∧
    (w &&& 0xF000 = 0x9000 → decode w = .not (reg 9) (reg 6)) ∧
    (w &&& 0xF000 = 0x0000 → decode w = .br (w.extractLsb' 9 3) (w.extractLsb' 0 9)) ∧
    (w &&& 0xF000 = 0xC000 → w &&& 0xF1C0 ≠ 0xC1C0 → decode w = .jmp (reg 6)) ∧
    (w &&& 0xF1C0 = 0xC1C0 → decode w = .ret) ∧
    (w &&& 0xF800 = 0x4800 → decode w = .jsr (w.extractLsb' 0 11)) ∧
    (w &&& 0xF800 = 0x4000 → decode w = .jsrr (reg 6)) ∧
    (w &&& 0xF000 = 0x2000 → decode w = .ld (reg 9) (w.extractLsb' 0 9)) ∧
    (w &&& 0xF000 = 0xA000 → decode w = .ldi (reg 9) (w.extractLsb' 0 9)) ∧
    (w &&& 0xF000 = 0x6000 → decode w = .ldr (reg 9) (reg 6) (w.extractLsb' 0 6)) ∧
    (w &&& 0xF000 = 0xE000 → decode w = .lea (reg 9) (w.extractLsb' 0 9)) ∧
    (w &&& 0xF000 = 0x3000 → decode w = .st (reg 9) (w.extractLsb' 0 9)) ∧
    (w &&& 0xF000 = 0xB000 → decode w = .sti (reg 9) (w.extractLsb' 0 9)) ∧
    (w &&& 0xF000 = 0x7000 → decode w = .str (reg 9) (reg 6) (w.extractLsb' 0 6)) ∧
    (w &&& 0xF000 = 0xF000 → decode w = .trap (w.extractLsb' 0 8)) ∧
    (w &&& 0xF000 = 0x8000 → decode w = .rti (w.extractLsb' 0 12)) ∧
    (w &&& 0xF000 = 0xD000 → decode w = .res (w.extractLsb' 0 12))

/-- Every word has the fixed bits of exactly one row of the opcode table, RET's row being part of JMP's (R90, R151). The
rows' numbers are the spec's adoption (D2, D3). -/
def Obligations.EveryWordMatchesExactlyOneRow : Prop :=
  ∀ w : Word, ∃ r ∈ coreRows, r.matches w = true ∧ ∀ q ∈ coreRows, q.matches w = true → q = r

/-- A word that differs from another only in don't-care bits decodes to the same instruction (R91, D4). For RTI and
RES, whose whole word halt_reason records (R251), every bit counts. Which bits these are is the spec's adoption (D2,
D3). -/
def Obligations.DontCareBitsAreIgnored : Prop :=
  ∀ w w' : Word, w &&& (rowOf (decode w)).care = w' &&& (rowOf (decode w)).care → decode w' = decode w

/-- Decoding the word of any well-formed instruction gives the instruction back, at every value of every operand. The
opcode values and positions are the spec's adoption (D2, D3). The form `jmp 7` is the one that is not well formed (log
entry 7). -/
def Obligations.DecodeEncodeRoundTrip : Prop :=
  ∀ i : Instr, wellFormed i = true → decode (encode i) = i

/-- Every word decodes to a well-formed instruction, whose canonical word agrees with it on every bit that is not
don't-care (R90, R91). The opcode values and positions are the spec's adoption (D2, D3), and so is ignoring those bits
(D4). A word of JMP R7 decodes to RET (log entry 7). -/
def Obligations.EveryWordDecodesAndReencodes : Prop :=
  ∀ w : Word, wellFormed (decode w) = true ∧
    encode (decode w) &&& (rowOf (decode w)).care = w &&& (rowOf (decode w)).care

/-! ## Values: sign extension, memory, registers, flags -/

/-- R10: sext_N keeps bits N-1..0 and fills every higher bit with bit N-1; zext_N fills them with 0. -/
def Obligations.SextFillsWithTheSignBit : Prop :=
  ∀ (n : Nat) (f : BitVec n), 1 ≤ n → n ≤ 16 → ∀ i < 16,
    (sext f).getLsbD i = (if i < n then f.getLsbD i else f.getLsbD (n - 1)) ∧
      (zext f).getLsbD i = (if i < n then f.getLsbD i else false)

/-- The signed value of an immediate or offset is that of its field, so the ranges of R86 follow from the widths. -/
def Obligations.SextKeepsTheSignedValue : Prop :=
  ∀ (n : Nat) (f : BitVec n), 1 ≤ n → n ≤ 16 →
    (sext f).toInt = f.toInt ∧ -(2 ^ (n - 1) : Int) ≤ (sext f).toInt ∧ (sext f).toInt < (2 ^ (n - 1) : Int)

/-- R53: MemWrite sets one word and changes nothing else, in memory or in the rest of the state. -/
def Obligations.MemoryWriteSetsOneWord : Prop :=
  ∀ (s : State) (a v b : Word),
    (s.store a v).load b = (if b = a then v else s.load b) ∧
      (s.store a v).regs = s.regs ∧ (s.store a v).pc = s.pc ∧ (s.store a v).cond = s.cond ∧ sameRun s (s.store a v)

/-- Two memories in canonical form that read alike at all 65536 addresses are the same data. The form is the model's
(log entry 10). -/
def Obligations.CanonicalMemoryIsDeterminedByItsReads : Prop :=
  ∀ m m' : Memory, Memory.wf m → Memory.wf m' → (∀ a, Memory.read m a = Memory.read m' a) → m = m'

/-- Every register, R0 included, holds what is written to it, and a write to one leaves the others alone (R20). -/
def Obligations.RegisterWriteThenRead : Prop :=
  ∀ (s : State) (r q : Reg) (v : Word), (s.setReg r v).reg q = if q = r then v else s.reg q

/-- Who writes `cond`, and who reads it (R27, R28): `setcc` writes the code of its value to `cond` and nothing else; the
listed instructions leave in `cond` the code of the value in DR; BR, JMP, RET, JSR, JSRR, ST, STI, STR, RTI and RES leave
`cond` alone; TRAP's service may change it; and of all instructions but TRAP only BR reads `cond`. That the service may
change it is the spec's decision D10 (R232), shown through the model's queue of answers (log entry 5). -/
def Obligations.FlagsComeOnlyFromTheDestination : Prop :=
  (∀ (v : Word) (s : State), codeOf v (s.setcc v).cond ∧ s.setcc v = s.withCond (s.setcc v).cond) ∧
    (∀ i s t dr, flagDest i = some dr → exec i s = .next t → codeOf (t.reg dr) t.cond) ∧
    (∀ i s t, flagDest i = none → isTrap i = false → exec i s = .next t → t.cond = s.cond) ∧
    (∃ v s t, exec (.trap v) s = .next t ∧ t.cond ≠ s.cond) ∧
    (∀ i s t c, isBr i = false → isTrap i = false → exec i s = .next t →
      ∃ t', exec i (s.withCond c) = .next t' ∧ t'.withCond t.cond = t ∧ (flagDest i ≠ none → t' = t))

/-- The PSR view: bits 2, 1, 0 are N, Z, P of `cond`, bits 15:3 read as 0 (R29, the spec's decision D7). -/
def Obligations.PsrShowsCondAndZeros : Prop :=
  ∀ (s : State) (i : Nat), i < 16 → s.psr.getLsbD i = (if i < 3 then s.cond.getLsbD i else false)

/-! ## The step -/

/-- R112: a running core fetches at pc, increments pc mod 2^16 before decoding, and executes the decoded instruction in
that state. The increment happens for every opcode, RTI and RES included; a fetch at 0xFFFF leaves pc = 0x0000. -/
def Obligations.StepRunsTheDecodedInstruction : Prop :=
  ∀ s : State, s.run = .running →
    step s = exec (decode (s.load s.pc)) s.advance ∧
      s.advance.pc = s.pc + 1 ∧ (s.pc = 0xFFFF → s.advance.pc = 0x0000) ∧
      sameRegs s s.advance ∧ s.advance.cond = s.cond ∧ s.advance.mem = s.mem ∧ sameRun s s.advance ∧
      (∀ t low12, (decode (s.load s.pc) = .rti low12 ∨ decode (s.load s.pc) = .res low12) → step s = .next t →
        t.pc = s.pc + 1)

/-- HALTED is final: a halted core answers no next state, however many steps are asked for (R115). That the step
answers the fault `halted` is the model's reading of "has no step" (log entry 9). That HALTED is final is the spec's
decision D13. -/
def Obligations.HaltedCoreHasNoStep : Prop :=
  ∀ (s : State) (k : Nat), s.run = .halted → Host.Core.run Sys2Proof.core (k + 1) s = .fault .halted

/-- When a step stops: exactly when the core is halted (R115) or is at a TRAP whose service offers no outcome (R231).
In every other state a step answers a next state; no instruction is refused (R122; log entries 5, 6 and 9). That HALTED
is final is the spec's decision D13, and the stuck core its decision D10. -/
def Obligations.StepStopsOnlyWhenHaltedOrStuck : Prop :=
  ∀ s : State,
    (step s = .fault .halted ↔ s.run = .halted) ∧
      (step s = .fault .trapStuck ↔
        s.run = .running ∧ (∃ v, decode s.fetch = .trap v) ∧ s.svcAnswers.head? = some .noOutcome) ∧
      ((∃ t, step s = .next t) ↔
        s.run = .running ∧ ¬ ((∃ v, decode s.fetch = .trap v) ∧ s.svcAnswers.head? = some .noOutcome))

/-- HALTED comes only from a halting trap or an unsupported opcode, and halt_reason records which (R30; the record is
the spec's decision D14). The service's halt signal is part of the outcome of decision D10 (log entry 5), and the word
in the record is carried by RTI and RES (log entry 8). -/
def Obligations.OnlyTrapOrUnsupportedOpcodeHalts : Prop :=
  ∀ s t : State, step s = .next t → t.run = .halted →
    (∃ v, decode s.fetch = .trap v ∧ t.haltReason = some (.trapHalt v)) ∨
      ((∃ low12, decode s.fetch = .rti low12 ∨ decode s.fetch = .res low12) ∧
        t.haltReason = some (.unsupported (s.fetch.extractLsb' 12 4) s.fetch s.pc))

/-- The value of pc at the end of the step has the four sources of the control-flow mux and no other (R120). Two cases rest
on the spec's own decisions: that TRAP's service leaves pc alone is decision D10 (R232, "the spec's reading of §3"; log
entry 5), and that JSRR R7 jumps through the old R7 is decision D12 (R211). -/
def Obligations.PcComesFromTheControlFlowMux : Prop :=
  ∀ i s t, exec i s = .next t → t.pc = pcMux i s

/-- Once exactly one flag is set, every step keeps it so, a trap call included (R26). That the service's c' is one flag or
the unchanged `cond` is the spec's decision D10 (R232; log entry 5). -/
def Obligations.OneFlagStaysSet : Prop :=
  ∀ s t : State, condOneHot s.cond → step s = .next t → condOneHot t.cond

/-- The core writes at most one general register per instruction, DR or R7, and none for the others; TRAP's registers are
the service's (R22). -/
def Obligations.OnlyTheDestinationRegisterIsWritten : Prop :=
  ∀ i s t, isTrap i = false → exec i s = .next t → ∀ r, destOf i ≠ some r → t.reg r = s.reg r

/-- Only ST, STI and STR write memory while the core runs; before the first step only the loader's writes leave a word
other than zero (R60). That TRAP's service writes no memory is the spec's decision D10 (R232; log entry 5). The
loader's image is the launch parameter of decision D21. -/
def Obligations.OnlyStoresWriteMemory : Prop :=
  (∀ i s t, storeOf i s = none → exec i s = .next t → t.mem = s.mem) ∧
    (∀ i s t a v, storeOf i s = some (a, v) → exec i s = .next t → t.load a = v ∧ sameMemBut a s t) ∧
    (∀ p service a, (∀ c ∈ p.image, c.1 ≠ a) → (State.launch p service).load a = 0)

/-! ## What each instruction does -/

/-- ADD, both modes: DR <- SR1 + (SR2 or sext_5(imm5)) mod 2^16, flags from the result (R130, R131). -/
def Obligations.AddWritesTheSum : Prop :=
  (∀ dr sr1 sr2 s, ∃ t, exec (.addReg dr sr1 sr2) s = .next t ∧ writesDest dr (s.reg sr1 + s.reg sr2) s t) ∧
    (∀ dr sr1 imm5 s, ∃ t, exec (.addImm dr sr1 imm5) s = .next t ∧ writesDest dr (s.reg sr1 + sext imm5) s t)

/-- AND, both modes: DR <- SR1 & (SR2 or sext_5(imm5)), flags from the result (R132, R133). -/
def Obligations.AndWritesTheConjunction : Prop :=
  (∀ dr sr1 sr2 s, ∃ t, exec (.andReg dr sr1 sr2) s = .next t ∧ writesDest dr (s.reg sr1 &&& s.reg sr2) s t) ∧
    (∀ dr sr1 imm5 s, ∃ t, exec (.andImm dr sr1 imm5) s = .next t ∧ writesDest dr (s.reg sr1 &&& sext imm5) s t)

/-- NOT: DR <- the complement of SR1, flags from the result (R134). -/
def Obligations.NotWritesTheComplement : Prop :=
  ∀ dr sr1 s, ∃ t, exec (.not dr sr1) s = .next t ∧ writesDest dr (~~~ s.reg sr1) s t

/-- JMP: pc <- x[BaseR], and nothing else; RET is JMP R7 (R150, R151). RET has a constructor of its own (log entry 7).
-/
def Obligations.JmpAndRetJumpThroughARegister : Prop :=
  (∀ base s, ∃ t, exec (.jmp base) s = .next t ∧ jumpsTo (s.reg base) s t) ∧
    (∀ s, ∃ t, exec .ret s = .next t ∧ jumpsTo (s.reg 7) s t) ∧ ∀ s, exec .ret s = exec (.jmp 7) s

/-- BR: taken exactly when (nzp & cond) != 0, to pc + sext_9(PCoffset9); else pc keeps the incremented value (R152). -/
def Obligations.BrBranchesOnTheMaskedFlags : Prop :=
  ∀ nzp off9 s, ∃ t, exec (.br nzp off9) s = .next t ∧
    (nzp &&& s.cond ≠ 0b000 → jumpsTo (s.pc + sext off9) s t) ∧ (nzp &&& s.cond = 0b000 → jumpsTo s.pc s t)

/-- LD: DR <- M[pc + sext_9(PCoffset9)], flags from the loaded value (R170). -/
def Obligations.LdLoadsPcRelative : Prop :=
  ∀ dr off9 s, ∃ t, exec (.ld dr off9) s = .next t ∧ writesDest dr (s.load (s.pc + sext off9)) s t

/-- LDI: DR <- M[M[pc + sext_9(PCoffset9)]], flags from the loaded value (R171). -/
def Obligations.LdiLoadsThroughThePointer : Prop :=
  ∀ dr off9 s, ∃ t, exec (.ldi dr off9) s = .next t ∧ writesDest dr (s.load (s.load (s.pc + sext off9))) s t

/-- LDR: DR <- M[x[BaseR] + sext_6(offset6)], the base read before DR is written (R172). -/
def Obligations.LdrLoadsBasePlusOffset : Prop :=
  ∀ dr base off6 s, ∃ t, exec (.ldr dr base off6) s = .next t ∧ writesDest dr (s.load (s.reg base + sext off6)) s t

/-- LEA: DR <- pc + sext_9(PCoffset9), no memory access, flags from the address (R173). The empty list
of transactions is the model's view of the port (log entry 12). -/
def Obligations.LeaWritesTheAddress : Prop :=
  ∀ dr off9 s, ∃ t, exec (.lea dr off9) s = .next t ∧ writesDest dr (s.pc + sext off9) s t ∧
    dataTransactions (.lea dr off9) s = []

/-- ST: M[pc + sext_9(PCoffset9)] <- x[SR], and nothing else (R190). -/
def Obligations.StStoresPcRelative : Prop :=
  ∀ sr off9 s, ∃ t, exec (.st sr off9) s = .next t ∧ storesAt (s.pc + sext off9) (s.reg sr) s t

/-- STI: M[M[pc + sext_9(PCoffset9)]] <- x[SR], the pointer read first, and nothing else (R191). -/
def Obligations.StiStoresThroughThePointer : Prop :=
  ∀ sr off9 s, ∃ t, exec (.sti sr off9) s = .next t ∧ storesAt (s.load (s.pc + sext off9)) (s.reg sr) s t

/-- STR: M[x[BaseR] + sext_6(offset6)] <- x[SR], and nothing else (R192). -/
def Obligations.StrStoresBasePlusOffset : Prop :=
  ∀ sr base off6 s, ∃ t, exec (.str sr base off6) s = .next t ∧ storesAt (s.reg base + sext off6) (s.reg sr) s t

/-- JSR: R7 <- the address of the next instruction, pc <- pc + sext_11(PCoffset11), no flag (R210). -/
def Obligations.JsrLinksAndJumps : Prop :=
  ∀ off11 s, ∃ t, exec (.jsr off11) s = .next t ∧ callsTo (s.pc + sext off11) s t

/-- JSRR: R7 <- the address of the next instruction, pc <- the old x[BaseR], also for BaseR = R7 (R211; the order is the
spec's decision D12). -/
def Obligations.JsrrLinksAndJumpsThroughTheOldBase : Prop :=
  ∀ base s, ∃ t, exec (.jsrr base) s = .next t ∧ callsTo (s.reg base) s t

/-- TRAP takes any outcome (halt, g', c') the service offers, applies all of it and nothing else, and halts with
TrapHalt(vect8) exactly when it says halt (R230 to R233). The queue of answers is the model's form of the relation
TRAP_SERVICE (log entry 5). What an outcome may change is the spec's decision D10, and that the core itself writes no
register its decision D11. -/
def Obligations.TrapTakesTheOfferedOutcome : Prop :=
  ∀ vect8 s o rest, s.svcAnswers = .outcome o :: rest →
    ∃ t, exec (.trap vect8) s = .next t ∧ takesOutcome vect8 o s t ∧ t.svcAnswers = rest

/-- With no answer queued TRAP takes some outcome, which nothing here constrains (log entries 5 and 6); with "no
outcome" queued the core is stuck (R231). The relation and its empty outcome set are the spec's decision D10. -/
def Obligations.TrapTakesAFreeOutcomeOrIsStuck : Prop :=
  (∀ vect8 s, s.svcAnswers = [] → ∃ o t, exec (.trap vect8) s = .next t ∧ takesOutcome vect8 o s t) ∧
    (∀ vect8 s rest, s.svcAnswers = .noOutcome :: rest → exec (.trap vect8) s = .fault .trapStuck)

/-- The bounds on the trap service (R232): whatever it answers, pc and memory are unchanged, `cond` is unchanged or
holds exactly one flag, and the core halts or goes on as it was. The bounds are the spec's decision D10; the outcomes
are held as in log entry 5. -/
def Obligations.TrapServiceIsBounded : Prop :=
  ∀ vect8 s t, exec (.trap vect8) s = .next t →
    t.pc = s.pc ∧ t.mem = s.mem ∧ (t.cond = s.cond ∨ condOneHot t.cond) ∧
      ((t.run = s.run ∧ t.haltReason = s.haltReason) ∨
        (t.run = .halted ∧ t.haltReason = some (.trapHalt vect8)))

/-- RTI raises UnsupportedOpcode(0x8, ir, A): the core halts with that record, nothing but the fetch-time increment has
happened (R235, R251; the record is the spec's decision D14). That there is no other mode is its decision D8 and D27;
the recorded word is carried by the instruction (log entry 8). -/
def Obligations.RtiRaisesUnsupportedOpcode : Prop :=
  (∀ low12 s, ∃ t, exec (.rti low12) s = .next t ∧ haltsUnsupported 0x8 (encode (.rti low12)) (s.pc - 1) s t) ∧
    (∀ s : State, s.run = .running → s.load s.pc &&& 0xF000 = 0x8000 →
      ∃ t, step s = .next t ∧ haltsUnsupported 0x8 (s.load s.pc) s.pc s.advance t)

/-- RES raises UnsupportedOpcode(0xD, ir, A) (R236, R251; the record is the spec's decision D14). The recorded word is
carried by the instruction (log entry 8). -/
def Obligations.ResRaisesUnsupportedOpcode : Prop :=
  (∀ low12 s, ∃ t, exec (.res low12) s = .next t ∧ haltsUnsupported 0xD (encode (.res low12)) (s.pc - 1) s t) ∧
    (∀ s : State, s.run = .running → s.load s.pc &&& 0xF000 = 0xD000 →
      ∃ t, step s = .next t ∧ haltsUnsupported 0xD (s.load s.pc) s.pc s.advance t)

/-! ## Across instructions -/

/-- R174: LD or LDR into DR, then ST or STR of DR to the same address as the next instruction, leaves memory as it was.
With LEA in place of the load it does so exactly when M[ea] already equals ea. The computed addresses are said through
the list of transactions, the model's view of the port (log entry 12). -/
def Obligations.LoadThenStoreBackKeepsMemory : Prop :=
  ∀ (s t u : State) (dr : Reg) (ea v : Word), step s = .next t → step t = .next u →
    ((∃ off9, decode t.fetch = .st dr off9) ∨ (∃ base off6, decode t.fetch = .str dr base off6)) →
    dataTransactions (decode t.fetch) t.advance = [.store ea v] →
    ((((∃ off9, decode s.fetch = .ld dr off9) ∨ (∃ base off6, decode s.fetch = .ldr dr base off6)) →
        dataTransactions (decode s.fetch) s.advance = [.load ea] → sameMem s u) ∧
      (∀ off9, decode s.fetch = .lea dr off9 → s.pc + 1 + sext off9 = ea → (sameMem s u ↔ s.load ea = ea)))

/-- A store into the next instruction's word is what the next step executes: fetch is coherent with stores, with no
delay (R65, R287). The spec makes it explicit in its decision D19. -/
def Obligations.StoreIsSeenByTheNextFetch : Prop :=
  ∀ (s t : State) (v : Word), step s = .next t → storeOf (decode s.fetch) s.advance = some (s.pc + 1, v) →
    t.fetch = v ∧ step t = exec (decode v) t.advance

/-- The transactions of R55 account for the step: memory after it is memory before with the STOREs applied, and at most
one STORE is issued, as the last transaction. R55 puts the trap service's own accesses outside the block; that TRAP,
whose one transaction is its FETCH, leaves memory as it is rests on the spec's decision D10 (R232; log entry 5). The
list of transactions is the model's view of the port (log entry 12). The order of the transactions is the spec's
decision D20. -/
def Obligations.TransactionsAccountForTheStep : Prop :=
  ∀ s t : State, step s = .next t →
    t.mem = (stepTransactions s).foldl Transaction.apply s.mem ∧
      ∀ a v, Transaction.store a v ∉ (stepTransactions s).dropLast

/-- An instruction but TRAP depends on memory only at the addresses it LOADs from (R54, R55): in two states that agree on
the registers and on those words it does the same, and every word on which they agreed they still agree. The list of
transactions is the model's view of the port (log entry 12). -/
def Obligations.ExecReadsOnlyTheLoadedWords : Prop :=
  ∀ i s s' t, isTrap i = false → agreeOnLoads i s s' → exec i s = .next t →
    ∃ t', exec i s' = .next t' ∧ t'.regs = t.regs ∧ t'.pc = t.pc ∧ t'.cond = t.cond ∧ sameRun t t' ∧
      ∀ a, s'.load a = s.load a → t'.load a = t.load a

/-- An instruction but TRAP depends on no general register but those R21 lists for it: with another value in a register it
does not read, it does the same, and that register alone may differ afterwards. -/
def Obligations.ExecReadsOnlyItsSourceRegisters : Prop :=
  ∀ (i : Instr) (s t : State) (r : Reg) (v : Word), isTrap i = false → r ∉ sourcesOf i → exec i s = .next t →
    ∃ t', exec i (s.setReg r v) = .next t' ∧ t'.pc = t.pc ∧ t'.cond = t.cond ∧ t'.mem = t.mem ∧ sameRun t t' ∧
      sameRegsBut r t t' ∧ t'.reg r = if destOf i = some r then t.reg r else v

/-- JMP to its own address loops for ever: any number of steps leaves the state as it is (R150, R264 e). -/
def Obligations.JumpToItselfRunsForever : Prop :=
  ∀ (s : State) (base : Reg) (k : Nat), s.run = .running → decode s.fetch = .jmp base → s.reg base = s.pc →
    Host.Core.run Sys2Proof.core k s = .next s

/-! ## Reset, launch and the invariant -/

/-- What the spec states of reset (R33, R280): RUNNING, no halt_reason, every word of memory zero, PSR[15:3] zero. The
other fields of `State.reset` are the model's choices (log entries 1 to 5). PSR[15:3] = 0 is the spec's decision D7,
the record none its decision D14. -/
def Obligations.ResetHoldsTheSpecValues : Prop :=
  State.reset.run = .running ∧ State.reset.haltReason = none ∧ (∀ a, State.reset.load a = 0) ∧
    State.reset.psr.extractLsb' 3 13 = 0 ∧ ∃ p, State.launch p [] = State.reset

/-- The launch table (R33), for all launch parameters whose image lists an address once: R0..R7 = INIT_GPR, pc =
ENTRY_PC, cond = INIT_COND, RUNNING, no halt_reason, memory the image and zero elsewhere. The parameters are the spec's
decisions D5, D6, D16 and D21. PSR[15:3] = 0 is the spec's decision D7, the record none its decision D14; `service` is
the model's form of the bound trap service (log entry 5). -/
def Obligations.LaunchHoldsTheParameters : Prop :=
  ∀ p service, (p.image.map Prod.fst).Nodup →
    let s := State.launch p service
    (∀ r, s.reg r = p.initGpr[r]) ∧ s.pc = p.entryPc ∧
      (p.initCond = none → s.cond = 0b000) ∧ (p.initCond = some .pos → s.cond = 0b001) ∧
      (p.initCond = some .zro → s.cond = 0b010) ∧ (p.initCond = some .neg → s.cond = 0b100) ∧
      s.run = .running ∧ s.haltReason = none ∧ s.psr.extractLsb' 3 13 = 0 ∧
      (∀ a v, (a, v) ∈ p.image → s.load a = v) ∧ (∀ a, a ∉ p.image.map Prod.fst → s.load a = 0)

/-- The invariant holds after reset. The canonical form is the model's (log entry 10), and so is the reset value of
cond (log entry 2, DESIGN CHOICE; the spec leaves INIT_COND open, D6); the record none is that of R33 (D14). -/
def Obligations.InvariantHoldsAtReset : Prop := State.reset.Inv

/-- The invariant holds at every launch, whatever the image. The canonical form is the model's (log entry 10); that
INIT_COND has at most one flag is the spec's decision D6. -/
def Obligations.InvariantHoldsAtLaunch : Prop := ∀ p service, (State.launch p service).Inv

/-- Every step keeps the invariant: memory stays in canonical form, at most one flag is set (R26), and there is a
halt_reason exactly when HALTED (R30). The canonical form is the model's (log entry 10); the case of TRAP rests on the
spec's decision D10 (R232; log entry 5). The record of halt_reason is the spec's decision D14. -/
def Obligations.EveryStepKeepsTheInvariant : Prop := ∀ s t : State, s.Inv → step s = .next t → t.Inv
end

