-- ==== Sys2Proof/Laws/Bits.lean ====
section
/-! SUPPORT. The laws of the field helpers of the decoder and the encoder: the fields of a disjunction, of a placed
field, and of a masked word. -/
namespace Sys2Proof

@[simp] theorem bits_getElem (w : Word) {lo n i : Nat} (h : i < n) : (bits w lo n)[i] = w.getLsbD (lo + i) := by
  simp [bits, BitVec.getElem_extractLsb']

@[simp] theorem place_getLsbD {n : Nat} (f : BitVec n) (lo i : Nat) :
    (place f lo).getLsbD i = (decide (i < 16) && decide (lo ≤ i) && f.getLsbD (i - lo)) := by
  by_cases h : i < lo
  · simp [place, h, Nat.not_le.mpr h]
  · by_cases h16 : i < 16
    · simp [place, h, h16, Nat.not_lt.mp h]
    · simp [place, h16]

/-- A register number and its three bits are one value. -/
theorem regField_eq {w : Word} {lo : Nat} {r : Reg} (h : bits w lo 3 = regBits r) : regField w lo = r := by
  rw [regField, h]
  rfl

theorem opcodeOf_eq {w : Word} {f : BitVec 4} (h : bits w 12 4 = f) : opcodeOf w = opcodeMap[f.toFin] :=
  congrArg (fun f : BitVec 4 => opcodeMap[f.toFin]) h

theorem opcodeOf_congr {w w' : Word} (h : bits w 12 4 = bits w' 12 4) : opcodeOf w = opcodeOf w' :=
  opcodeOf_eq h

theorem regField_congr {w w' : Word} {lo : Nat} (h : bits w lo 3 = bits w' lo 3) : regField w lo = regField w' lo :=
  congrArg BitVec.toFin h

/-- The bits of a word under a mask. -/
theorem getLsbD_of_mask {w mask pattern : Word} (h : w &&& mask = pattern) {i : Nat} (hm : mask.getLsbD i = true) :
    w.getLsbD i = pattern.getLsbD i := by
  rw [← h, BitVec.getLsbD_and, hm, Bool.and_true]

/-- A field that a mask covers whole. -/
theorem bits_of_mask {w mask pattern : Word} (h : w &&& mask = pattern) {lo n : Nat}
    (hm : ∀ i, i < n → mask.getLsbD (lo + i) = true) : bits w lo n = bits pattern lo n := by
  ext i hi
  rw [bits_getElem, bits_getElem]
  exact getLsbD_of_mask h (hm i hi)

/-- A word that agrees with another on the bits a mask marks has the same field there. -/
theorem bits_of_agree {w w' care : Word} (h : w &&& care = w' &&& care) {lo n : Nat}
    (hm : ∀ i, i < n → care.getLsbD (lo + i) = true) : bits w lo n = bits w' lo n := by
  ext i hi
  have := congrArg (BitVec.getLsbD · (lo + i)) h
  simpa [BitVec.getLsbD_and, hm i hi] using this

end Sys2Proof
end

