-- ==== Sys2Proof/Laws/Memory.lean ====
section
/-! SUPPORT. The laws of memory: a read after a write, and that every memory operation keeps the canonical form. -/
namespace Sys2Proof.Machine

theorem Memory.lookup_erase_same (m : Memory) (k : Nat) : Memory.lookup (Memory.erase m k) k = Memory.unlisted := by
  induction m with
  | nil => rfl
  | cons c m ih =>
    by_cases h : c.1 = k
    · simpa [Memory.erase, h] using ih
    · simpa [Memory.erase, Memory.lookup, h] using ih

theorem Memory.lookup_erase_other (m : Memory) {k j : Nat} (hj : j ≠ k) :
    Memory.lookup (Memory.erase m k) j = Memory.lookup m j := by
  induction m with
  | nil => rfl
  | cons c m ih =>
    by_cases h : c.1 = k
    · simpa [Memory.erase, Memory.lookup, h, Ne.symm hj] using ih
    · by_cases h' : c.1 = j
      · simp [Memory.erase, Memory.lookup, h', hj]
      · simpa [Memory.erase, Memory.lookup, h, h'] using ih

theorem Memory.lookup_insert_other (m : Memory) {k j : Nat} (v : Word) (hj : j ≠ k) :
    Memory.lookup (Memory.insert k v m) j = Memory.lookup m j := by
  induction m with
  | nil => simp [Memory.insert, Memory.lookup, Ne.symm hj]
  | cons c m ih =>
    by_cases hlt : k < c.1
    · simp [Memory.insert, Memory.lookup, hlt, Ne.symm hj]
    · simp [Memory.insert, Memory.lookup, hlt, ih]

/-- Inserting at an address that has no entry makes the address read as the inserted word. -/
theorem Memory.lookup_insert_same (m : Memory) {k : Nat} (v : Word) (hk : ∀ c ∈ m, c.1 ≠ k) :
    Memory.lookup (Memory.insert k v m) k = v := by
  induction m with
  | nil => simp [Memory.insert, Memory.lookup]
  | cons c m ih =>
    have hc : c.1 ≠ k := hk c (by simp)
    by_cases hlt : k < c.1
    · simp [Memory.insert, Memory.lookup, hlt]
    · simpa [Memory.insert, Memory.lookup, hlt, hc] using ih (fun d hd => hk d (by simp [hd]))

theorem Memory.ne_of_mem_erase {m : Memory} {k : Nat} {c : Cell} (h : c ∈ Memory.erase m k) : c.1 ≠ k := by
  simpa using (List.mem_filter.mp h).2

@[simp] theorem Memory.read_write_same (m : Memory) (a v : Word) : Memory.read (Memory.write m a v) a = v := by
  unfold Memory.read Memory.write
  split
  next h => rw [Memory.lookup_erase_same, h]
  next => exact Memory.lookup_insert_same _ v (fun _ hc => Memory.ne_of_mem_erase hc)

theorem Memory.read_write_other (m : Memory) {a b : Word} (v : Word) (h : b ≠ a) :
    Memory.read (Memory.write m a v) b = Memory.read m b := by
  have hn : b.toNat ≠ a.toNat := fun he => h (BitVec.eq_of_toNat_eq he)
  unfold Memory.read Memory.write
  split
  next => exact Memory.lookup_erase_other m hn
  next => rw [Memory.lookup_insert_other _ v hn, Memory.lookup_erase_other m hn]

theorem Memory.erase_wf {m : Memory} (k : Nat) (h : Memory.wf m) : Memory.wf (Memory.erase m k) :=
  ⟨h.1.filter _, fun c hc => h.2 c (List.mem_filter.mp hc).1⟩

theorem Memory.mem_insert {m : Memory} {k : Nat} {v : Word} {c : Cell} :
    c ∈ Memory.insert k v m ↔ c = (k, v) ∨ c ∈ m := by
  induction m with
  | nil => simp [Memory.insert]
  | cons d m ih =>
    by_cases hlt : k < d.1
    · simp [Memory.insert, hlt]
    · simp only [Memory.insert, hlt, if_false, List.mem_cons, ih]
      exact or_left_comm

theorem Memory.insert_wf {m : Memory} {k : Nat} {v : Word} (h : Memory.wf m) (hk : k < 65536)
    (hv : v ≠ Memory.unlisted) (hfree : ∀ c ∈ m, c.1 ≠ k) : Memory.wf (Memory.insert k v m) := by
  refine ⟨?_, fun c hc => ?_⟩
  · have hs := h.1
    clear h
    induction m with
    | nil => simp [Memory.insert]
    | cons d m ih =>
      obtain ⟨hd, hm⟩ := List.pairwise_cons.mp hs
      by_cases hlt : k < d.1
      · have : ∀ e ∈ d :: m, k < e.1 := by
          intro e he
          rcases List.mem_cons.mp he with rfl | he
          · exact hlt
          · exact Nat.lt_trans hlt (hd e he)
        simp only [Memory.insert, hlt, if_true]
        exact List.pairwise_cons.mpr ⟨this, hs⟩
      · simp only [Memory.insert, hlt, if_false]
        refine List.pairwise_cons.mpr ⟨fun e he => ?_, ih (fun c hc => hfree c (by simp [hc])) hm⟩
        rcases Memory.mem_insert.mp he with rfl | he
        · have := hfree d (by simp)
          show d.1 < k
          omega
        · exact hd e he
  · rcases Memory.mem_insert.mp hc with rfl | hc
    · exact ⟨hk, hv⟩
    · exact h.2 c hc

theorem Memory.write_wf {m : Memory} (a v : Word) (h : Memory.wf m) : Memory.wf (Memory.write m a v) := by
  unfold Memory.write
  split
  next => exact Memory.erase_wf _ h
  next hv => exact Memory.insert_wf (Memory.erase_wf _ h) a.isLt hv (fun _ hc => Memory.ne_of_mem_erase hc)

theorem Memory.nil_wf : Memory.wf [] := by simp [Memory.wf]

theorem Memory.loadImage_wf {m : Memory} (image : List (Word × Word)) (h : Memory.wf m) :
    Memory.wf (Memory.loadImage m image) := by
  unfold Memory.loadImage
  induction image generalizing m with
  | nil => exact h
  | cons c image ih => exact ih (Memory.write_wf _ _ h)

end Sys2Proof.Machine
end

