-- ==== Sys2Proof/Laws/State.lean ====
section
/-! SUPPORT. One lemma per field per named update of State, all true by unfolding, so that no later proof unfolds a record
update. -/
namespace Sys2Proof.Machine

@[simp] theorem State.setcc_regs (s : State) (v : Word) : (s.setcc v).regs = s.regs := rfl
@[simp] theorem State.setcc_pc (s : State) (v : Word) : (s.setcc v).pc = s.pc := rfl
@[simp] theorem State.setcc_cond (s : State) (v : Word) : (s.setcc v).cond = flagBits (flagOf v) := rfl
@[simp] theorem State.setcc_run (s : State) (v : Word) : (s.setcc v).run = s.run := rfl
@[simp] theorem State.setcc_haltReason (s : State) (v : Word) : (s.setcc v).haltReason = s.haltReason := rfl
@[simp] theorem State.setcc_mem (s : State) (v : Word) : (s.setcc v).mem = s.mem := rfl
@[simp] theorem State.setcc_svcAnswers (s : State) (v : Word) : (s.setcc v).svcAnswers = s.svcAnswers := rfl
@[simp] theorem State.setcc_svcCalls (s : State) (v : Word) : (s.setcc v).svcCalls = s.svcCalls := rfl

@[simp] theorem State.setReg_regs (s : State) (r : Reg) (v : Word) : (s.setReg r v).regs = s.regs.set r v := rfl
@[simp] theorem State.setReg_pc (s : State) (r : Reg) (v : Word) : (s.setReg r v).pc = s.pc := rfl
@[simp] theorem State.setReg_cond (s : State) (r : Reg) (v : Word) : (s.setReg r v).cond = s.cond := rfl
@[simp] theorem State.setReg_run (s : State) (r : Reg) (v : Word) : (s.setReg r v).run = s.run := rfl
@[simp] theorem State.setReg_haltReason (s : State) (r : Reg) (v : Word) : (s.setReg r v).haltReason = s.haltReason := rfl
@[simp] theorem State.setReg_mem (s : State) (r : Reg) (v : Word) : (s.setReg r v).mem = s.mem := rfl
@[simp] theorem State.setReg_svcAnswers (s : State) (r : Reg) (v : Word) : (s.setReg r v).svcAnswers = s.svcAnswers := rfl
@[simp] theorem State.setReg_svcCalls (s : State) (r : Reg) (v : Word) : (s.setReg r v).svcCalls = s.svcCalls := rfl

@[simp] theorem State.setPc_regs (s : State) (a : Word) : (s.setPc a).regs = s.regs := rfl
@[simp] theorem State.setPc_pc (s : State) (a : Word) : (s.setPc a).pc = a := rfl
@[simp] theorem State.setPc_cond (s : State) (a : Word) : (s.setPc a).cond = s.cond := rfl
@[simp] theorem State.setPc_run (s : State) (a : Word) : (s.setPc a).run = s.run := rfl
@[simp] theorem State.setPc_haltReason (s : State) (a : Word) : (s.setPc a).haltReason = s.haltReason := rfl
@[simp] theorem State.setPc_mem (s : State) (a : Word) : (s.setPc a).mem = s.mem := rfl
@[simp] theorem State.setPc_svcAnswers (s : State) (a : Word) : (s.setPc a).svcAnswers = s.svcAnswers := rfl
@[simp] theorem State.setPc_svcCalls (s : State) (a : Word) : (s.setPc a).svcCalls = s.svcCalls := rfl

@[simp] theorem State.advance_regs (s : State) : (s.advance).regs = s.regs := rfl
@[simp] theorem State.advance_pc (s : State) : (s.advance).pc = s.pc + 1 := rfl
@[simp] theorem State.advance_cond (s : State) : (s.advance).cond = s.cond := rfl
@[simp] theorem State.advance_run (s : State) : (s.advance).run = s.run := rfl
@[simp] theorem State.advance_haltReason (s : State) : (s.advance).haltReason = s.haltReason := rfl
@[simp] theorem State.advance_mem (s : State) : (s.advance).mem = s.mem := rfl
@[simp] theorem State.advance_svcAnswers (s : State) : (s.advance).svcAnswers = s.svcAnswers := rfl
@[simp] theorem State.advance_svcCalls (s : State) : (s.advance).svcCalls = s.svcCalls := rfl

@[simp] theorem State.store_regs (s : State) (a v : Word) : (s.store a v).regs = s.regs := rfl
@[simp] theorem State.store_pc (s : State) (a v : Word) : (s.store a v).pc = s.pc := rfl
@[simp] theorem State.store_cond (s : State) (a v : Word) : (s.store a v).cond = s.cond := rfl
@[simp] theorem State.store_run (s : State) (a v : Word) : (s.store a v).run = s.run := rfl
@[simp] theorem State.store_haltReason (s : State) (a v : Word) : (s.store a v).haltReason = s.haltReason := rfl
@[simp] theorem State.store_mem (s : State) (a v : Word) : (s.store a v).mem = Memory.write s.mem a v := rfl
@[simp] theorem State.store_svcAnswers (s : State) (a v : Word) : (s.store a v).svcAnswers = s.svcAnswers := rfl
@[simp] theorem State.store_svcCalls (s : State) (a v : Word) : (s.store a v).svcCalls = s.svcCalls := rfl

@[simp] theorem State.writeDest_regs (s : State) (r : Reg) (v : Word) : (s.writeDest r v).regs = s.regs.set r v := rfl
@[simp] theorem State.writeDest_pc (s : State) (r : Reg) (v : Word) : (s.writeDest r v).pc = s.pc := rfl
@[simp] theorem State.writeDest_cond (s : State) (r : Reg) (v : Word) : (s.writeDest r v).cond = flagBits (flagOf v) := rfl
@[simp] theorem State.writeDest_run (s : State) (r : Reg) (v : Word) : (s.writeDest r v).run = s.run := rfl
@[simp] theorem State.writeDest_haltReason (s : State) (r : Reg) (v : Word) : (s.writeDest r v).haltReason = s.haltReason := rfl
@[simp] theorem State.writeDest_mem (s : State) (r : Reg) (v : Word) : (s.writeDest r v).mem = s.mem := rfl
@[simp] theorem State.writeDest_svcAnswers (s : State) (r : Reg) (v : Word) : (s.writeDest r v).svcAnswers = s.svcAnswers := rfl
@[simp] theorem State.writeDest_svcCalls (s : State) (r : Reg) (v : Word) : (s.writeDest r v).svcCalls = s.svcCalls := rfl

@[simp] theorem State.haltWith_regs (s : State) (r : HaltReason) : (s.haltWith r).regs = s.regs := rfl
@[simp] theorem State.haltWith_pc (s : State) (r : HaltReason) : (s.haltWith r).pc = s.pc := rfl
@[simp] theorem State.haltWith_cond (s : State) (r : HaltReason) : (s.haltWith r).cond = s.cond := rfl
@[simp] theorem State.haltWith_run (s : State) (r : HaltReason) : (s.haltWith r).run = .halted := rfl
@[simp] theorem State.haltWith_haltReason (s : State) (r : HaltReason) : (s.haltWith r).haltReason = some r := rfl
@[simp] theorem State.haltWith_mem (s : State) (r : HaltReason) : (s.haltWith r).mem = s.mem := rfl
@[simp] theorem State.haltWith_svcAnswers (s : State) (r : HaltReason) : (s.haltWith r).svcAnswers = s.svcAnswers := rfl
@[simp] theorem State.haltWith_svcCalls (s : State) (r : HaltReason) : (s.haltWith r).svcCalls = s.svcCalls := rfl

@[simp] theorem State.raiseUnsupported_regs (s : State) (op : BitVec 4) (w : Word) : (s.raiseUnsupported op w).regs = s.regs := rfl
@[simp] theorem State.raiseUnsupported_pc (s : State) (op : BitVec 4) (w : Word) : (s.raiseUnsupported op w).pc = s.pc := rfl
@[simp] theorem State.raiseUnsupported_cond (s : State) (op : BitVec 4) (w : Word) : (s.raiseUnsupported op w).cond = s.cond := rfl
@[simp] theorem State.raiseUnsupported_run (s : State) (op : BitVec 4) (w : Word) : (s.raiseUnsupported op w).run = .halted := rfl
@[simp] theorem State.raiseUnsupported_haltReason (s : State) (op : BitVec 4) (w : Word) : (s.raiseUnsupported op w).haltReason = some (.unsupported op w (s.pc - 1)) := rfl
@[simp] theorem State.raiseUnsupported_mem (s : State) (op : BitVec 4) (w : Word) : (s.raiseUnsupported op w).mem = s.mem := rfl
@[simp] theorem State.raiseUnsupported_svcAnswers (s : State) (op : BitVec 4) (w : Word) : (s.raiseUnsupported op w).svcAnswers = s.svcAnswers := rfl
@[simp] theorem State.raiseUnsupported_svcCalls (s : State) (op : BitVec 4) (w : Word) : (s.raiseUnsupported op w).svcCalls = s.svcCalls := rfl

@[simp] theorem State.callTaken_regs (s : State) : (s.callTaken).regs = s.regs := rfl
@[simp] theorem State.callTaken_pc (s : State) : (s.callTaken).pc = s.pc := rfl
@[simp] theorem State.callTaken_cond (s : State) : (s.callTaken).cond = s.cond := rfl
@[simp] theorem State.callTaken_run (s : State) : (s.callTaken).run = s.run := rfl
@[simp] theorem State.callTaken_haltReason (s : State) : (s.callTaken).haltReason = s.haltReason := rfl
@[simp] theorem State.callTaken_mem (s : State) : (s.callTaken).mem = s.mem := rfl
@[simp] theorem State.callTaken_svcAnswers (s : State) : (s.callTaken).svcAnswers = s.svcAnswers.tail := rfl
@[simp] theorem State.callTaken_svcCalls (s : State) : (s.callTaken).svcCalls = s.svcCalls + 1 := rfl

@[simp] theorem State.applyOutcome_regs (s : State) (o : TrapOutcome) : (s.applyOutcome o).regs = o.regs := rfl
@[simp] theorem State.applyOutcome_pc (s : State) (o : TrapOutcome) : (s.applyOutcome o).pc = s.pc := rfl
@[simp] theorem State.applyOutcome_cond (s : State) (o : TrapOutcome) : (s.applyOutcome o).cond = condAfter o.cond s.cond := rfl
@[simp] theorem State.applyOutcome_run (s : State) (o : TrapOutcome) : (s.applyOutcome o).run = s.run := rfl
@[simp] theorem State.applyOutcome_haltReason (s : State) (o : TrapOutcome) : (s.applyOutcome o).haltReason = s.haltReason := rfl
@[simp] theorem State.applyOutcome_mem (s : State) (o : TrapOutcome) : (s.applyOutcome o).mem = s.mem := rfl
@[simp] theorem State.applyOutcome_svcAnswers (s : State) (o : TrapOutcome) : (s.applyOutcome o).svcAnswers = s.svcAnswers := rfl
@[simp] theorem State.applyOutcome_svcCalls (s : State) (o : TrapOutcome) : (s.applyOutcome o).svcCalls = s.svcCalls := rfl

@[simp] theorem State.withCond_regs (s : State) (c : BitVec 3) : (s.withCond c).regs = s.regs := rfl
@[simp] theorem State.withCond_pc (s : State) (c : BitVec 3) : (s.withCond c).pc = s.pc := rfl
@[simp] theorem State.withCond_cond (s : State) (c : BitVec 3) : (s.withCond c).cond = c := rfl
@[simp] theorem State.withCond_run (s : State) (c : BitVec 3) : (s.withCond c).run = s.run := rfl
@[simp] theorem State.withCond_haltReason (s : State) (c : BitVec 3) : (s.withCond c).haltReason = s.haltReason := rfl
@[simp] theorem State.withCond_mem (s : State) (c : BitVec 3) : (s.withCond c).mem = s.mem := rfl
@[simp] theorem State.withCond_svcAnswers (s : State) (c : BitVec 3) : (s.withCond c).svcAnswers = s.svcAnswers := rfl
@[simp] theorem State.withCond_svcCalls (s : State) (c : BitVec 3) : (s.withCond c).svcCalls = s.svcCalls := rfl

end Sys2Proof.Machine
end

