-- ==== Sys2Proof/Laws/Ops.lean ====
section
/-! SUPPORT. One lemma per shared operation that says everything it does, in the terms of Safety.lean. -/
namespace Sys2Proof.Machine

@[simp] theorem State.setReg_reg_same (s : State) (r : Reg) (v : Word) : (s.setReg r v).reg r = v := by
  simp [State.reg, State.setReg]

theorem State.setReg_reg_other (s : State) {r q : Reg} (v : Word) (h : q ≠ r) : (s.setReg r v).reg q = s.reg q := by
  have : (r : Nat) ≠ (q : Nat) := fun he => h (Fin.ext he.symm)
  simp [State.reg, State.setReg, this]

@[simp] theorem State.setPc_reg (s : State) (a : Word) (r : Reg) : (s.setPc a).reg r = s.reg r := rfl
@[simp] theorem State.advance_reg (s : State) (r : Reg) : (s.advance).reg r = s.reg r := rfl
@[simp] theorem State.setcc_reg (s : State) (v : Word) (r : Reg) : (s.setcc v).reg r = s.reg r := rfl
@[simp] theorem State.haltWith_reg (s : State) (h : HaltReason) (r : Reg) : (s.haltWith h).reg r = s.reg r := rfl
@[simp] theorem State.raiseUnsupported_reg (s : State) (op : BitVec 4) (w : Word) (r : Reg) : (s.raiseUnsupported op w).reg r = s.reg r := rfl
@[simp] theorem State.callTaken_reg (s : State) (r : Reg) : (s.callTaken).reg r = s.reg r := rfl
@[simp] theorem State.withCond_reg (s : State) (c : BitVec 3) (r : Reg) : (s.withCond c).reg r = s.reg r := rfl
@[simp] theorem State.store_reg (s : State) (a v : Word) (r : Reg) : (s.store a v).reg r = s.reg r := rfl
@[simp] theorem State.applyOutcome_reg (s : State) (o : TrapOutcome) (r : Reg) : (s.applyOutcome o).reg r = o.regs[r] :=
  rfl

@[simp] theorem State.setPc_load (s : State) (a : Word) (x : Word) : (s.setPc a).load x = s.load x := rfl
@[simp] theorem State.advance_load (s : State) (x : Word) : (s.advance).load x = s.load x := rfl
@[simp] theorem State.setcc_load (s : State) (v : Word) (x : Word) : (s.setcc v).load x = s.load x := rfl
@[simp] theorem State.haltWith_load (s : State) (h : HaltReason) (x : Word) : (s.haltWith h).load x = s.load x := rfl
@[simp] theorem State.raiseUnsupported_load (s : State) (op : BitVec 4) (w : Word) (x : Word) : (s.raiseUnsupported op w).load x = s.load x :=
  rfl
@[simp] theorem State.callTaken_load (s : State) (x : Word) : (s.callTaken).load x = s.load x := rfl
@[simp] theorem State.withCond_load (s : State) (c : BitVec 3) (x : Word) : (s.withCond c).load x = s.load x := rfl
@[simp] theorem State.setReg_load (s : State) (q : Reg) (v : Word) (x : Word) : (s.setReg q v).load x = s.load x := rfl
@[simp] theorem State.writeDest_load (s : State) (q : Reg) (v : Word) (x : Word) : (s.writeDest q v).load x = s.load x :=
  rfl
@[simp] theorem State.applyOutcome_load (s : State) (o : TrapOutcome) (x : Word) : (s.applyOutcome o).load x = s.load x :=
  rfl

@[simp] theorem State.store_load_same (s : State) (a v : Word) : (s.store a v).load a = v := by
  simp [State.load, State.store]

theorem State.store_load_other (s : State) {a b : Word} (v : Word) (h : b ≠ a) :
    (s.store a v).load b = s.load b :=
  Memory.read_write_other s.mem v h

/-- The loads of two states with one memory agree. -/
theorem sameMem_of_mem_eq {s t : State} (h : t.mem = s.mem) : sameMem s t := fun a => by simp [State.load, h]

theorem codeOf_flagBits (v : Word) : codeOf v (flagBits (flagOf v)) := by
  refine ⟨fun h => ?_, fun h h15 => ?_, fun h h15 => ?_⟩ <;> simp [flagOf, h, flagBits] <;> simp_all

theorem condOneHot_flagBits (f : Flag) : condOneHot (flagBits f) := by
  cases f <;> simp [condOneHot, flagBits]

theorem condLegal_of_oneHot {c : BitVec 3} (h : condOneHot c) : condLegal c := Or.inr h

theorem condLegal_condAfter {c : Option Flag} {old : BitVec 3} (h : condLegal old) : condLegal (condAfter c old) := by
  cases c with
  | none => exact h
  | some f => exact condLegal_of_oneHot (condOneHot_flagBits f)

/-- The write port and the flag updater do what `writesDest` says, and no more. -/
theorem State.writeDest_spec (s : State) (dr : Reg) (v : Word) : writesDest dr v s (s.writeDest dr v) :=
  ⟨s.setReg_reg_same dr v, codeOf_flagBits v, fun _ hr => s.setReg_reg_other v hr, rfl, fun _ => rfl, rfl, rfl, rfl, rfl⟩

theorem State.setPc_spec (s : State) (a : Word) : jumpsTo a s (s.setPc a) :=
  ⟨rfl, fun _ => rfl, rfl, fun _ => rfl, rfl, rfl, rfl, rfl⟩

theorem callTo_spec (s : State) (a : Word) : ∃ t, callTo a s = .next t ∧ callsTo a s t :=
  ⟨_, rfl, rfl, s.setReg_reg_same 7 s.pc, fun _ hr => s.setReg_reg_other s.pc hr, rfl, fun _ => rfl, rfl, rfl, rfl, rfl⟩

theorem State.store_spec (s : State) (a v : Word) : storesAt a v s (s.store a v) :=
  ⟨s.store_load_same a v, fun _ hb => s.store_load_other v hb, fun _ => rfl, rfl, rfl, rfl, rfl, rfl, rfl⟩

/-- Everything an outcome of the trap service can do. -/
theorem execTrap_outcome {vect8 : BitVec 8} {s : State} {o : TrapOutcome} (h : s.trapCall vect8 = .outcome o) :
    ∃ t, execTrap vect8 s = .next t ∧ takesOutcome vect8 o s t ∧
      t.svcAnswers = s.svcAnswers.tail ∧ t.svcCalls = s.svcCalls + 1 := by
  cases hh : o.halt <;> cases hc : o.cond <;>
    simp [execTrap, h, takesOutcome, hh, hc, condAfter, State.reg, sameMem, State.load]
  all_goals
    rename_i f
    cases f <;> simp [flagBits]

/-- The two ways a trap call can end. -/
theorem execTrap_cases (vect8 : BitVec 8) (s : State) :
    (execTrap vect8 s = .fault .trapStuck ∧ s.trapCall vect8 = .noOutcome) ∨
      ∃ o t, s.trapCall vect8 = .outcome o ∧ execTrap vect8 s = .next t := by
  cases h : s.trapCall vect8 with
  | noOutcome => exact .inl ⟨by simp only [execTrap, h], rfl⟩
  | outcome o =>
    obtain ⟨t, ht, _⟩ := execTrap_outcome h
    exact .inr ⟨o, t, rfl, ht⟩

/-- The fault a trap call raises needs a queued "no outcome". -/
theorem trapCall_noOutcome {vect8 : BitVec 8} {s : State} :
    s.trapCall vect8 = .noOutcome ↔ s.svcAnswers.head? = some .noOutcome := by
  unfold State.trapCall
  cases s.svcAnswers with
  | nil => simp
  | cons a _ => simp

end Sys2Proof.Machine
end

