-- ==== Sys2Proof/Laws/PerInstr.lean ====
section
/-! SUPPORT. The family MatchesItsRow: the word of an instruction has the fixed bits of the opcode-table row the
instruction belongs to (30_encoding.md R89). One lemma per constructor. -/
namespace Sys2Proof.Laws

/-- A claim about the sixteen bits of a word, bit by bit. -/
theorem forall_bits {P : Nat → Prop}
    (h : (P 0 ∧ P 1 ∧ P 2 ∧ P 3 ∧ P 4 ∧ P 5 ∧ P 6 ∧ P 7) ∧ P 8 ∧ P 9 ∧ P 10 ∧ P 11 ∧ P 12 ∧ P 13 ∧ P 14 ∧ P 15) :
    ∀ i, i < 16 → P i := by
  obtain ⟨⟨h0, h1, h2, h3, h4, h5, h6, h7⟩, h8, h9, h10, h11, h12, h13, h14, h15⟩ := h
  intro i hi
  interval_cases i <;> assumption

/-- A word matches a row when it agrees with the row's pattern on every bit of the mask. -/
theorem matches_of_bits {r : Row} {w : Word}
    (h : ∀ i, i < 16 → (w.getLsbD i && r.mask.getLsbD i) = r.pattern.getLsbD i) : r.matches w = true := by
  rw [Row.matches, beq_iff_eq]
  exact BitVec.eq_of_getLsbD_eq fun i hi => by rw [BitVec.getLsbD_and]; exact h i hi

end Sys2Proof.Laws

namespace Sys2Proof.Laws.MatchesItsRow

/-- The encoded word has the fixed bits of its row. -/
def Statement (i : Instr) : Prop := (rowOf i).matches (encode i) = true

theorem addReg (dr sr1 sr2 : Reg) : Statement (.addReg dr sr1 sr2) := by
  refine matches_of_bits (forall_bits ?_)
  simp [encode, opRegWord, rowOf, -BitVec.getLsbD_eq_getElem]

theorem addImm (dr sr1 : Reg) (imm5 : BitVec 5) : Statement (.addImm dr sr1 imm5) := by
  refine matches_of_bits (forall_bits ?_)
  simp [encode, opRegWord, rowOf, -BitVec.getLsbD_eq_getElem]

theorem andReg (dr sr1 sr2 : Reg) : Statement (.andReg dr sr1 sr2) := by
  refine matches_of_bits (forall_bits ?_)
  simp [encode, opRegWord, rowOf, -BitVec.getLsbD_eq_getElem]

theorem andImm (dr sr1 : Reg) (imm5 : BitVec 5) : Statement (.andImm dr sr1 imm5) := by
  refine matches_of_bits (forall_bits ?_)
  simp [encode, opRegWord, rowOf, -BitVec.getLsbD_eq_getElem]

theorem not (dr sr1 : Reg) : Statement (.not dr sr1) := by
  refine matches_of_bits (forall_bits ?_)
  simp [encode, opRegWord, rowOf, -BitVec.getLsbD_eq_getElem]

theorem br (nzp : BitVec 3) (off9 : BitVec 9) : Statement (.br nzp off9) := by
  refine matches_of_bits (forall_bits ?_)
  simp [encode, rowOf, -BitVec.getLsbD_eq_getElem]

theorem jmp (base : Reg) : Statement (.jmp base) := by
  refine matches_of_bits (forall_bits ?_)
  simp [encode, rowOf, regBits, -BitVec.getLsbD_eq_getElem]

theorem ret : Statement .ret := by
  refine matches_of_bits (forall_bits ?_)
  simp [encode, rowOf, regBits, -BitVec.getLsbD_eq_getElem]

theorem jsr (off11 : BitVec 11) : Statement (.jsr off11) := by
  refine matches_of_bits (forall_bits ?_)
  simp [encode, rowOf, -BitVec.getLsbD_eq_getElem]

theorem jsrr (base : Reg) : Statement (.jsrr base) := by
  refine matches_of_bits (forall_bits ?_)
  simp [encode, rowOf, regBits, -BitVec.getLsbD_eq_getElem]

theorem ld (dr : Reg) (off9 : BitVec 9) : Statement (.ld dr off9) := by
  refine matches_of_bits (forall_bits ?_)
  simp [encode, opRegWord, rowOf, -BitVec.getLsbD_eq_getElem]

theorem ldi (dr : Reg) (off9 : BitVec 9) : Statement (.ldi dr off9) := by
  refine matches_of_bits (forall_bits ?_)
  simp [encode, opRegWord, rowOf, -BitVec.getLsbD_eq_getElem]

theorem ldr (dr base : Reg) (off6 : BitVec 6) : Statement (.ldr dr base off6) := by
  refine matches_of_bits (forall_bits ?_)
  simp [encode, opRegWord, rowOf, -BitVec.getLsbD_eq_getElem]

theorem lea (dr : Reg) (off9 : BitVec 9) : Statement (.lea dr off9) := by
  refine matches_of_bits (forall_bits ?_)
  simp [encode, opRegWord, rowOf, -BitVec.getLsbD_eq_getElem]

theorem st (sr : Reg) (off9 : BitVec 9) : Statement (.st sr off9) := by
  refine matches_of_bits (forall_bits ?_)
  simp [encode, opRegWord, rowOf, -BitVec.getLsbD_eq_getElem]

theorem sti (sr : Reg) (off9 : BitVec 9) : Statement (.sti sr off9) := by
  refine matches_of_bits (forall_bits ?_)
  simp [encode, opRegWord, rowOf, -BitVec.getLsbD_eq_getElem]

theorem str (sr base : Reg) (off6 : BitVec 6) : Statement (.str sr base off6) := by
  refine matches_of_bits (forall_bits ?_)
  simp [encode, opRegWord, rowOf, -BitVec.getLsbD_eq_getElem]

theorem trap (vect8 : BitVec 8) : Statement (.trap vect8) := by
  refine matches_of_bits (forall_bits ?_)
  simp [encode, rowOf, -BitVec.getLsbD_eq_getElem]

theorem rti (low12 : BitVec 12) : Statement (.rti low12) := by
  refine matches_of_bits (forall_bits ?_)
  simp [encode, noneWord, rowOf, -BitVec.getLsbD_eq_getElem]

theorem res (low12 : BitVec 12) : Statement (.res low12) := by
  refine matches_of_bits (forall_bits ?_)
  simp [encode, noneWord, rowOf, -BitVec.getLsbD_eq_getElem]

end Sys2Proof.Laws.MatchesItsRow
end

