-- ==== Sys2Proof/Laws/Step.lean ====
section
/-! SUPPORT. Inversion: what it takes for a step, and for an instruction, to answer a next state. -/
namespace Sys2Proof.Machine

/-- A step that answers a next state ran the fetched instruction in a running core. -/
theorem step_next_iff {s t : State} :
    step s = .next t ↔ s.run = .running ∧ exec (decode s.fetch) s.advance = .next t := by
  cases h : s.run <;> simp [step, h, cycle]

/-- A trap call that answers a next state applied an outcome and left memory alone. -/
theorem execTrap_next {vect8 : BitVec 8} {s t : State} (h : execTrap vect8 s = .next t) :
    ∃ o, s.trapCall vect8 = .outcome o ∧ t.mem = s.mem ∧ takesOutcome vect8 o s t := by
  cases hc : s.trapCall vect8 with
  | noOutcome => simp [execTrap, hc] at h
  | outcome o =>
    obtain ⟨u, hu, ho, _⟩ := execTrap_outcome hc
    obtain rfl : t = u := by simpa [h] using hu
    simp only [execTrap, hc, Host.Outcome.next.injEq] at h
    subst h
    exact ⟨o, rfl, by split <;> simp, ho⟩

/-- An instruction answers a next state, or it is a TRAP whose service offers no outcome. -/
theorem exec_next_or_stuck (i : Instr) (s : State) :
    (∃ t, exec i s = .next t) ∨
      (exec i s = .fault .trapStuck ∧ (∃ vect8, i = .trap vect8) ∧ s.svcAnswers.head? = some .noOutcome) := by
  cases i with
  | trap vect8 =>
    rcases execTrap_cases vect8 s with ⟨hf, hn⟩ | ⟨_, t, _, ht⟩
    · exact .inr ⟨hf, ⟨vect8, rfl⟩, trapCall_noOutcome.mp hn⟩
    · exact .inl ⟨t, ht⟩
  | addReg | addImm | andReg | andImm | not | br | jmp | ret | jsr | jsrr => exact .inl ⟨_, rfl⟩
  | ld | ldi | ldr | lea | st | sti | str | rti | res => exact .inl ⟨_, rfl⟩

end Sys2Proof.Machine
end

