-- ==== Sys2Proof/Tests/Slice0.lean ====
section
/-! SUPPORT. The model's own tests. Every expected result is from spec/95_test_vectors.md (V<n>, W<n>) or a worked example
of a rule; a witness shows that the hypotheses of an obligation can be met. -/
namespace Sys2Proof.Tests
open Sys2Proof.Machine

/-- The state of a vector: R0..R7 zero but for `rs`, the words `ms` in memory, the word `w` at `a`, and pc = `a`. -/
def start (a w : Word) (c : BitVec 3) (rs : List (Reg × Word)) (ms : List (Word × Word)) : State :=
  let s := State.launch ⟨Vector.replicate 8 0, none, a, (a, w) :: ms⟩ []
  rs.foldl (fun s r => s.setReg r.1 r.2) (s.withCond c)

/-- What one step leaves in a register, `cond` and `pc`. -/
def regAfter (s : State) (r : Reg) : Option (Word × BitVec 3 × Word) :=
  match step s with
  | .next t => some (t.reg r, t.cond, t.pc)
  | .fault _ => none
  | .refused _ => none

/-- What one step leaves in a word of memory, `cond` and `pc`. -/
def wordAfter (s : State) (a : Word) : Option (Word × BitVec 3 × Word) :=
  match step s with
  | .next t => some (t.load a, t.cond, t.pc)
  | .fault _ => none
  | .refused _ => none

/-- What one step leaves of the run: its state and record, and `pc`. -/
def runAfter (s : State) : Option (RunState × Option HaltReason × Word) :=
  match step s with
  | .next t => some (t.run, t.haltReason, t.pc)
  | .fault _ => none
  | .refused _ => none

/-! ## Well-formedness, decoding, encoding -/

theorem test_jmp_r7_is_ill_formed : wellFormed (.jmp 7) = false := by decide
theorem test_jmp_r6_is_well_formed : wellFormed (.jmp 6) = true := by decide

-- V1 and the examples of R130 to R236, each word written out from the formats R73 to R83
theorem test_decode_addReg : decode 0b0001_001_010_0_00_011 = .addReg 1 2 3 := by decide
theorem test_decode_addReg_ignores_4_3 : decode 0b0001_000_000_0_11_111 = .addReg 0 0 7 := by decide
theorem test_decode_addImm : decode 0b0001_001_010_1_11111 = .addImm 1 2 0b11111 := by decide
theorem test_decode_andReg : decode 0b0101_001_010_0_00_011 = .andReg 1 2 3 := by decide
theorem test_decode_andImm : decode 0b0101_001_010_1_00011 = .andImm 1 2 3 := by decide
theorem test_decode_not : decode 0b1001_001_010_111111 = .not 1 2 := by decide
theorem test_decode_not_ignores_5_0 : decode 0x9000 = .not 0 0 := by decide
theorem test_decode_br : decode 0b0000_001_111111101 = .br 0b001 0x1FD := by decide
theorem test_decode_jmp : decode 0b1100_000_011_000000 = .jmp 3 := by decide
theorem test_decode_ret : decode 0xC1C0 = .ret ∧ decode 0xCFFF = .ret := by decide
theorem test_decode_jsr : decode 0b0100_1_00000000010 = .jsr 2 := by decide
theorem test_decode_jsrr : decode 0b0100_0_00_010_000000 = .jsrr 2 ∧ decode 0x47FF = .jsrr 7 := by decide
theorem test_decode_ld : decode 0b0010_011_000000100 = .ld 3 4 := by decide
theorem test_decode_ldi : decode 0b1010_000_000000110 = .ldi 0 6 := by decide
theorem test_decode_ldr : decode 0b0110_010_001_000000 = .ldr 2 1 0 := by decide
theorem test_decode_lea : decode 0b1110_001_000000101 = .lea 1 5 := by decide
theorem test_decode_st : decode 0b0011_100_000000010 = .st 4 2 := by decide
theorem test_decode_sti : decode 0b1011_000_000000100 = .sti 0 4 := by decide
theorem test_decode_str : decode 0b0111_100_001_000010 = .str 4 1 2 := by decide
theorem test_decode_trap : decode 0xF025 = .trap 0x25 ∧ decode 0xFF25 = .trap 0x25 := by decide
theorem test_decode_rti : decode 0x8FFF = .rti 0xFFF := by decide
theorem test_decode_res : decode 0xD123 = .res 0x123 := by decide
theorem test_encode_canonical :
    encode (.not 1 2) = 0x92BF ∧ encode .ret = 0xC1C0 ∧ encode (.jsrr 7) = 0x41C0 ∧ encode (.str 4 1 0x3F) = 0x787F := by
  decide
theorem test_decodeTableWord : decodeTableWord 16 0x1283 = some (.addReg 1 2 3) := by decide
theorem test_decodeTableWord_longer : decodeTableWord 32 0x1283 = none := by decide

/-! ## Values -/

-- W1 and V2
theorem test_sext : sext 0x1F#5 = 0xFFFF ∧ sext 0x0F#5 = 0x000F ∧ sext 0x20#6 = 0xFFE0 ∧ sext 0x100#9 = 0xFF00 ∧
    sext 0x400#11 = 0xFC00 ∧ sext 0x3FF#11 = 0x03FF := by decide
-- W2
theorem test_flagOf : flagOf 0x0000 = .zro ∧ flagOf 0x0001 = .pos ∧ flagOf 0x7FFF = .pos ∧ flagOf 0x8000 = .neg ∧
    flagOf 0xFFFF = .neg := by decide
theorem test_psr : (State.reset.withCond 0b100).psr = 0x0004 := by decide
theorem test_write_of_zero_leaves_no_entry : Memory.write (Memory.write [] 0x3000 5) 0x3000 0 = [] := by decide
theorem test_write_keeps_the_order :
    Memory.write (Memory.write (Memory.write [] 0x3001 7) 0x0002 1) 0x3001 9 = [(0x0002, 1), (0x3001, 9)] := by decide

/-! ## One step of each instruction -/

-- V3
theorem test_addReg_overflows : regAfter (start 0x3000 0x1283 0 [(2, 0x7FFF), (3, 1)] []) 1
    = some (0x8000, 0b100, 0x3001) := by decide
theorem test_addReg_doubles_itself : regAfter (start 0x3000 0x1241 0 [(1, 0x4000)] []) 1
    = some (0x8000, 0b100, 0x3001) := by decide
theorem test_addImm_underflows : regAfter (start 0x3000 0x12BF 0 [(2, 0x8000)] []) 1
    = some (0x7FFF, 0b001, 0x3001) := by decide
-- W4
theorem test_addImm_zero : regAfter (start 0x3000 0x12BF 0 [(2, 1)] []) 1 = some (0, 0b010, 0x3001) := by decide
-- V4
theorem test_andReg : regAfter (start 0x3000 0x5283 0 [(2, 0x8001), (3, 0x8000)] []) 1
    = some (0x8000, 0b100, 0x3001) := by decide
theorem test_andImm_extends : regAfter (start 0x3000 0x52B0 0 [(2, 0x123F)] []) 1
    = some (0x1230, 0b001, 0x3001) := by decide
-- V5
theorem test_not_in_place : regAfter (start 0x3000 0x927F 0 [(1, 0x8000)] []) 1
    = some (0x7FFF, 0b001, 0x3001) := by decide
-- V6
theorem test_br_taken_backward : regAfter (start 0x3005 0x03FD 0b001 [] []) 0 = some (0, 0b001, 0x3003) := by decide
theorem test_br_no_flag_falls_through : regAfter (start 0x3000 0x0E05 0b000 [] []) 0 = some (0, 0, 0x3001) := by decide
-- V7
theorem test_jmp : regAfter (start 0x3000 0xCAFF 0b001 [(3, 0x1234)] []) 3 = some (0x1234, 0b001, 0x1234) := by decide
theorem test_ret : regAfter (start 0x3000 0xC1C0 0b001 [(7, 0x3002)] []) 7 = some (0x3002, 0b001, 0x3002) := by decide
-- V8
theorem test_ld_wraps : regAfter (start 0xFFF0 0x20FF 0 [] [(0x00F0, 0x0042)]) 0 = some (0x0042, 0b001, 0xFFF1) := by
  decide
theorem test_ld_own_word : regAfter (start 0x3000 0x21FF 0 [] []) 0 = some (0x21FF, 0b001, 0x3001) := by decide
-- V9
theorem test_ldi : regAfter (start 0x3000 0xA006 0 [] [(0x3007, 0xFFFF), (0xFFFF, 0x8000)]) 0
    = some (0x8000, 0b100, 0x3001) := by decide
-- V10
theorem test_ldr_wraps_below_zero : regAfter (start 0x3000 0x647F 0 [] [(0xFFFF, 0x8001)]) 2
    = some (0x8001, 0b100, 0x3001) := by decide
theorem test_ldr_overwrites_its_base : regAfter (start 0x3000 0x6240 0 [(1, 0x4000)] []) 1
    = some (0, 0b010, 0x3001) := by decide
-- V11
theorem test_lea_wraps_to_zero : regAfter (start 0xFFFF 0xE200 0 [] []) 1 = some (0, 0b010, 0) := by decide
theorem test_lea_negative : regAfter (start 0x8000 0xE3FF 0 [] []) 1 = some (0x8000, 0b100, 0x8001) := by decide
-- V12
theorem test_st_own_word : wordAfter (start 0x3000 0x39FF 0b100 [(4, 0x1234)] []) 0x3000
    = some (0x1234, 0b100, 0x3001) := by decide
theorem test_st_wraps : wordAfter (start 0xFFFF 0x3801 0 [(4, 0xAAAA)] []) 0x0001 = some (0xAAAA, 0, 0) := by decide
-- V13
theorem test_sti : wordAfter (start 0x3002 0xB004 0 [(0, 0xFFFD)] [(0x3007, 0x3008)]) 0x3008
    = some (0xFFFD, 0, 0x3003) := by decide
theorem test_sti_overwrites_its_pointer : wordAfter (start 0x3000 0xB000 0 [(0, 0x7777)] [(0x3001, 0x3001)]) 0x3001
    = some (0x7777, 0, 0x3001) := by decide
-- V14
theorem test_str_wraps : wordAfter (start 0x3000 0x787F 0 [(1, 0), (4, 0x8000)] []) 0xFFFF
    = some (0x8000, 0, 0x3001) := by decide
-- V15
theorem test_jsr_most_backward : regAfter (start 0x3000 0x4C00 0b010 [] []) 7 = some (0x3001, 0b010, 0x2C01) := by decide
theorem test_jsr_link_wraps : regAfter (start 0xFFFF 0x4800 0b010 [] []) 7 = some (0, 0b010, 0) := by decide
-- V16
theorem test_jsrr_r7_reads_the_old_r7 : regAfter (start 0x3000 0x41C0 0b100 [(7, 0x4000)] []) 7
    = some (0x3001, 0b100, 0x4000) := by decide

/-- A state at a TRAP whose service is about to give `o`. -/
def trapStart (w : Word) (c : BitVec 3) (r7 : Word) (a : TrapAnswer) : State :=
  { start 0x3000 w c [(7, r7)] [] with svcAnswers := [a] }

/-- R0..R7 with R0 = `r0` and R7 = `r7`, the others zero. -/
def fileOf (r0 r7 : Word) : RegFile := #v[r0, 0, 0, 0, 0, 0, 0, r7]

-- V17: SVC_H halts on 0x25 and returns registers and cond unchanged; SVC_R0 gives R0 = 0x0041 for 0x20
theorem test_trap_halts : runAfter (trapStart 0xFF25 0b100 0x1234 (.outcome ⟨true, fileOf 0 0x1234, none⟩))
    = some (.halted, some (.trapHalt 0x25), 0x3001) := by decide
theorem test_trap_copies_the_registers : regAfter (trapStart 0xF020 0b100 0 (.outcome ⟨false, fileOf 0x41 0, none⟩)) 0
    = some (0x0041, 0b100, 0x3001) := by decide
-- V18
theorem test_rti_at_zero : runAfter (start 0x0000 0x8000 0b010 [] [])
    = some (.halted, some (.unsupported 0x8 0x8000 0x0000), 0x0001) := by decide
theorem test_res_at_the_top : runAfter (start 0xFFFF 0xDFFF 0b100 [] [])
    = some (.halted, some (.unsupported 0xD 0xDFFF 0xFFFF), 0x0000) := by decide
-- a word placed at reset's pc runs as the next instruction (AND R0, R0, #0 sets Z)
theorem test_withFetchWord : regAfter (State.reset.withFetchWord 16 0x5020) 0 = some (0, 0b010, 0x3001) := by decide
-- P5: the word stored into the next instruction
theorem test_launch_places_the_image : (start 0x3000 0x3A00 0 [] [(0x3001, 0x1021)]).load 0x3001 = 0x1021 := by decide

/-! ## Witnesses: the hypotheses of the obligations can be met -/

/-- A state that satisfies the invariant and stands at `w`. -/
theorem start_inv (a w : Word) : (start a w 0 [] []).Inv :=
  ⟨Memory.loadImage_wf _ Memory.nil_wf, .inl rfl, by simp [start, State.launch]⟩

-- DecodeFollowsTheOpcodeTable: a word for each clause, at the top of its field ranges
theorem witness_table_clauses :
    (0x1FC7 : Word) &&& 0xF020 = 0x1000 ∧ (0x1FFF : Word) &&& 0xF020 = 0x1020 ∧ (0x5FC7 : Word) &&& 0xF020 = 0x5000 ∧
    (0x5FFF : Word) &&& 0xF020 = 0x5020 ∧ (0x9FFF : Word) &&& 0xF000 = 0x9000 ∧ (0x0FFF : Word) &&& 0xF000 = 0x0000 ∧
    ((0xC180 : Word) &&& 0xF000 = 0xC000 ∧ (0xC180 : Word) &&& 0xF1C0 ≠ 0xC1C0) ∧ (0xCFFF : Word) &&& 0xF1C0 = 0xC1C0 ∧
    (0x4FFF : Word) &&& 0xF800 = 0x4800 ∧ (0x47FF : Word) &&& 0xF800 = 0x4000 := by decide
theorem witness_table_clauses_memory_and_system :
    (0x2FFF : Word) &&& 0xF000 = 0x2000 ∧ (0xAFFF : Word) &&& 0xF000 = 0xA000 ∧ (0x6FFF : Word) &&& 0xF000 = 0x6000 ∧
    (0xEFFF : Word) &&& 0xF000 = 0xE000 ∧ (0x3FFF : Word) &&& 0xF000 = 0x3000 ∧ (0xBFFF : Word) &&& 0xF000 = 0xB000 ∧
    (0x7FFF : Word) &&& 0xF000 = 0x7000 ∧ (0xFFFF : Word) &&& 0xF000 = 0xF000 ∧ (0x8FFF : Word) &&& 0xF000 = 0x8000 ∧
    (0xDFFF : Word) &&& 0xF000 = 0xD000 := by decide
theorem witness_DontCareBitsAreIgnored :
    (0x101F : Word) ≠ 0x1007 ∧ 0x101F &&& (rowOf (decode 0x101F)).care = 0x1007 &&& (rowOf (decode 0x101F)).care := by
  decide
theorem witness_DecodeEncodeRoundTrip : wellFormed (.ldr 7 7 0x3F) = true := by decide
theorem witness_Sext : 1 ≤ 5 ∧ 5 ≤ 16 ∧ 15 < 16 := by decide
theorem witness_CanonicalMemory : Memory.wf [(0, 1), (65535, 2)] ∧ ∀ a, Memory.read [(0, 1), (65535, 2)] a
    = Memory.read (Memory.write [(0, 1)] 65535 2) a := ⟨by decide, fun _ => rfl⟩
theorem witness_PsrShowsCondAndZeros : 15 < 16 := by decide

theorem witness_Flags_dest : flagDest (.lea 1 5) = some 1 ∧ ∃ t, exec (.lea 1 5) State.reset = .next t := ⟨rfl, _, rfl⟩
theorem witness_Flags_kept : flagDest (.jsrr 7) = none ∧ isTrap (.jsrr 7) = false ∧
    ∃ t, exec (.jsrr 7) State.reset = .next t := ⟨rfl, rfl, _, rfl⟩
theorem witness_Flags_not_read : isBr (.not 1 2) = false ∧ isTrap (.not 1 2) = false ∧
    flagDest (.not 1 2) ≠ none ∧ ∃ t, exec (.not 1 2) State.reset = .next t := ⟨rfl, rfl, by decide, _, rfl⟩

theorem witness_Step : (start 0xFFFF 0x8000 0 [] []).run = .running ∧ (start 0xFFFF 0x8000 0 [] []).pc = 0xFFFF ∧
    decode ((start 0xFFFF 0x8000 0 [] []).load 0xFFFF) = .rti 0 ∧
    ∃ t, step (start 0xFFFF 0x8000 0 [] []) = .next t := ⟨rfl, rfl, by decide, _, rfl⟩
theorem witness_Halted : (State.reset.haltWith (.trapHalt 0x25)).run = .halted := rfl
theorem witness_Halts_trap : ∃ t, step (trapStart 0xF025 0 0 (.outcome ⟨true, fileOf 0 0, none⟩)) = .next t ∧
    t.run = .halted := ⟨_, rfl, rfl⟩
theorem witness_Halts_unsupported : ∃ t, step (start 0x3000 0xD123 0 [] []) = .next t ∧ t.run = .halted := ⟨_, rfl, rfl⟩
theorem witness_PcMux : ∃ t, exec (.br 0b111 0x1FF) (State.reset.withCond 0b010) = .next t := ⟨_, rfl⟩
theorem witness_OneFlag : condOneHot (start 0x3000 0x5020 0b100 [] []).cond ∧
    ∃ t, step (start 0x3000 0x5020 0b100 [] []) = .next t := ⟨.inr (.inr rfl), _, rfl⟩
theorem witness_OnlyTheDestination : isTrap (.jsr 0x7FF) = false ∧ destOf (.jsr 0x7FF) ≠ some 6 ∧
    ∃ t, exec (.jsr 0x7FF) State.reset = .next t := ⟨rfl, by decide, _, rfl⟩
theorem witness_OnlyStores_none : storeOf (.ldi 0 0) State.reset = none ∧ ∃ t, exec (.ldi 0 0) State.reset = .next t :=
  ⟨rfl, _, rfl⟩
theorem witness_OnlyStores_some : storeOf (.str 1 1 0x20) State.reset = some (0xFFE0, 0) ∧
    ∃ t, exec (.str 1 1 0x20) State.reset = .next t := ⟨by decide, _, rfl⟩
theorem witness_OnlyStores_image : ∀ c ∈ ([(0x3000, 0xF025)] : List (Word × Word)), c.1 ≠ 0x3001 := by simp

theorem witness_Br_taken : (0b111 : BitVec 3) &&& (State.reset.withCond 0b100).cond ≠ 0b000 := by decide
theorem witness_Br_not_taken : (0b111 : BitVec 3) &&& State.reset.cond = 0b000 := by decide
theorem witness_Trap_offered : (trapStart 0xF020 0 0 (.outcome ⟨false, fileOf 0x41 0, some .pos⟩)).svcAnswers
    = .outcome ⟨false, fileOf 0x41 0, some .pos⟩ :: [] := rfl
theorem witness_Trap_free : State.reset.svcAnswers = [] := rfl
theorem witness_Trap_stuck : (trapStart 0xF020 0 0 .noOutcome).svcAnswers = .noOutcome :: [] := rfl
theorem witness_Trap_bounded : ∃ t, exec (.trap 0x20) State.reset = .next t := ⟨_, rfl⟩
theorem witness_Rti : (start 0x3000 0x8FFF 0 [] []).run = .running ∧
    (start 0x3000 0x8FFF 0 [] []).load 0x3000 &&& 0xF000 = 0x8000 := ⟨rfl, by decide⟩
theorem witness_Res : (start 0x3000 0xDFFF 0 [] []).run = .running ∧
    (start 0x3000 0xDFFF 0 [] []).load 0x3000 &&& 0xF000 = 0xD000 := ⟨rfl, by decide⟩

/-- Two steps from `s` and the instructions they run. -/
def runsTwo (s : State) (i j : Instr) (ea v : Word) : Prop :=
  ∃ t u, step s = .next t ∧ step t = .next u ∧ decode s.fetch = i ∧ decode t.fetch = j ∧
    dataTransactions j t.advance = [.store ea v]

-- W8: LD R3, #2 then ST R3, #1, both at 0x3003; and LEA in place of LD
theorem witness_LoadThenStoreBack :
    runsTwo (start 0x3000 0x2602 0 [] [(0x3001, 0x3601), (0x3003, 0xBEEF)]) (.ld 3 2) (.st 3 1) 0x3003 0xBEEF ∧
      dataTransactions (.ld 3 2) (start 0x3000 0x2602 0 [] [(0x3001, 0x3601), (0x3003, 0xBEEF)]).advance
        = [.load 0x3003] :=
  ⟨⟨_, _, rfl, rfl, by decide, by decide, by decide⟩, by decide⟩
theorem witness_LdrThenStrBack :
    runsTwo (start 0x3000 0x6440 0 [(1, 0x4000)] [(0x3001, 0x7440), (0x4000, 0x1234)]) (.ldr 2 1 0) (.str 2 1 0) 0x4000
        0x1234 ∧
      dataTransactions (.ldr 2 1 0)
        (start 0x3000 0x6440 0 [(1, 0x4000)] [(0x3001, 0x7440), (0x4000, 0x1234)]).advance = [.load 0x4000] :=
  ⟨⟨_, _, rfl, rfl, by decide, by decide, by decide⟩, by decide⟩
theorem witness_LeaThenStoreBack :
    runsTwo (start 0x3000 0xE602 0 [] [(0x3001, 0x3601), (0x3003, 0xBEEF)]) (.lea 3 2) (.st 3 1) 0x3003 0x3003 ∧
      (0x3000 : Word) + 1 + sext 2#9 = 0x3003 :=
  ⟨⟨_, _, rfl, rfl, by decide, by decide, by decide⟩, by decide⟩
-- P5: ST R5, #0 stores 0xF025 into the next instruction
theorem witness_StoreIsSeen : (∃ t, step (start 0x3000 0x3A00 0 [(5, 0xF025)] []) = .next t) ∧
    storeOf (decode (start 0x3000 0x3A00 0 [(5, 0xF025)] []).fetch) (start 0x3000 0x3A00 0 [(5, 0xF025)] []).advance
      = some (0x3001, 0xF025) := ⟨⟨_, rfl⟩, by decide⟩
theorem witness_Transactions : ∃ t, step (start 0x3000 0xB000 0 [] []) = .next t := ⟨_, rfl⟩

/-- A reset machine with a word at 0x4000, which LDI at 0x3000 does not load. -/
def otherMemory : State := State.reset.store 0x4000 7

theorem witness_ExecReads : isTrap (.ldi 1 0) = false ∧ agreeOnLoads (.ldi 1 0) State.reset otherMemory ∧
    otherMemory.load 0x4000 ≠ State.reset.load 0x4000 ∧ ∃ t, exec (.ldi 1 0) State.reset = .next t := by
  refine ⟨rfl, ⟨rfl, rfl, rfl, ⟨rfl, rfl, rfl, rfl⟩, fun a ha => ?_⟩, by decide, _, rfl⟩
  have : a = 0x3000 ∨ a = 0 := by simpa [dataTransactions, State.pcOff9, State.pointer, State.load, Memory.read,
    State.reset, Memory.lookup, Memory.unlisted, sext, Config.resetPc] using ha
  rcases this with rfl | rfl <;> decide
theorem witness_ExecReadsOnlyItsSources : isTrap (.jsrr 3) = false ∧ 7 ∉ sourcesOf (.jsrr 3) ∧
    destOf (.jsrr 3) = some 7 ∧ ∃ t, exec (.jsrr 3) State.reset = .next t := ⟨rfl, by decide, rfl, _, rfl⟩
theorem witness_JumpToItself : (start 0x3000 0xC000 0 [(0, 0x3000)] []).run = .running ∧
    decode (start 0x3000 0xC000 0 [(0, 0x3000)] []).fetch = .jmp 0 ∧
    (start 0x3000 0xC000 0 [(0, 0x3000)] []).reg 0 = 0x3000 := ⟨rfl, by decide, by decide⟩
theorem witness_Launch : (([(0x3000, 0xF025), (0x0000, 0x8000)] : List (Word × Word)).map Prod.fst).Nodup := by decide
theorem witness_EveryStepKeepsTheInvariant : (start 0x3000 0x3801 0 [] []).Inv ∧
    ∃ t, step (start 0x3000 0x3801 0 [] []) = .next t := ⟨start_inv _ _, _, rfl⟩

end Sys2Proof.Tests
end

section
/-! The bits of the two extensions, and the obligation about them (00_scope.md R10). -/
namespace Sys2Proof.Machine

theorem sext_getLsbD {n : Nat} (f : BitVec n) {i : Nat} (hi : i < 16) :
    (sext f).getLsbD i = if i < n then f.getLsbD i else f.getLsbD (n - 1) := by
  rw [sext, BitVec.getLsbD_signExtend, BitVec.msb_eq_getLsbD_last, decide_eq_true hi, Bool.true_and]

theorem zext_getLsbD {n : Nat} (f : BitVec n) {i : Nat} (hi : i < 16) :
    (zext f).getLsbD i = if i < n then f.getLsbD i else false := by
  have keeps : (zext f).getLsbD i = f.getLsbD i := by simp [zext, hi]
  split
  case isTrue => exact keeps
  case isFalse above => rw [keeps, BitVec.getLsbD_of_ge f i (Nat.le_of_not_lt above)]

/-- Settles O7: the bits of the two extensions. The bounds on the width are not needed. -/
theorem sextFillsWithTheSignBit : Obligations.SextFillsWithTheSignBit :=
  fun _ f _ _ _ hi => ⟨sext_getLsbD f hi, zext_getLsbD f hi⟩

end Sys2Proof.Machine
end

section
/-! A load after a store, at any two addresses, and the obligation about MemWrite (20_memory.md R53). -/
namespace Sys2Proof.Machine

theorem State.store_load (s : State) (a v b : Word) :
    (s.store a v).load b = if b = a then v else s.load b := by
  split
  case isTrue same => rw [same, State.store_load_same]
  case isFalse other => exact s.store_load_other v other

/-- Settles O9: the load is decided by whether the addresses are equal, and the rest is the frame of the store. -/
theorem memoryWriteSetsOneWord : Obligations.MemoryWriteSetsOneWord := by
  intro s a v b
  obtain ⟨-, -, -, hcond, hpc, hrun⟩ := s.store_spec a v
  exact ⟨s.store_load a v b, s.store_regs a v, hpc, hcond, hrun⟩

end Sys2Proof.Machine
end

section
/-! The step of a running core, the two unsupported opcodes, and the obligation about the fetch-time increment
(40_cycle.md R112). -/
namespace Sys2Proof.Machine

theorem step_of_running {s : State} (running : s.run = .running) : step s = exec (decode s.fetch) s.advance := by
  simp only [step, running, cycle]

theorem exec_rti (low12 : BitVec 12) (s : State) :
    exec (.rti low12) s = .next (s.raiseUnsupported 0x8 (noneWord 0x8 low12)) := rfl

theorem exec_res (low12 : BitVec 12) (s : State) :
    exec (.res low12) s = .next (s.raiseUnsupported 0xD (noneWord 0xD low12)) := rfl

/-- RTI and RES halt the core with pc where the fetch-time increment left it (R235, R236). -/
theorem exec_unsupported_pc {i : Instr} {low12 : BitVec 12} {s t : State} (unsupported : i = .rti low12 ∨ i = .res low12)
    (next : exec i s = .next t) : t.pc = s.pc := by
  rcases unsupported with rfl | rfl
  · rw [exec_rti, Host.Outcome.next.injEq] at next
    rw [← next, State.raiseUnsupported_pc]
  · rw [exec_res, Host.Outcome.next.injEq] at next
    rw [← next, State.raiseUnsupported_pc]

theorem advance_pc_wraps {s : State} (top : s.pc = 0xFFFF) : s.advance.pc = 0x0000 := by
  rw [State.advance_pc, top]
  rfl

/-- Settles O14: the increment is a jump to pc + 1, and RTI and RES leave pc as the increment made it. -/
theorem stepRunsTheDecodedInstruction : Obligations.StepRunsTheDecodedInstruction := by
  intro s running
  have runs : step s = exec (decode s.fetch) s.advance := step_of_running running
  obtain ⟨hpc, hregs, hcond, -, hrun⟩ : jumpsTo (s.pc + 1) s s.advance := s.setPc_spec (s.pc + 1)
  refine ⟨runs, hpc, advance_pc_wraps, hregs, hcond, s.advance_mem, hrun, fun t low12 unsupported next => ?_⟩
  exact (exec_unsupported_pc unsupported (runs ▸ next)).trans hpc

end Sys2Proof.Machine
end

section
/-! The algebra of fields (30_encoding.md sections 1 to 3): the fields of a disjunction and of a placed field, and what
placing a field of a word back gives. -/
namespace Sys2Proof

@[simp] theorem bits_or (a b : Word) (lo n : Nat) : bits (a ||| b) lo n = bits a lo n ||| bits b lo n := by
  ext i hi
  simp

@[simp] theorem bits_place_same {n lo : Nat} (f : BitVec n) (fits : lo + n ≤ 16) : bits (place f lo) lo n = f := by
  ext i hi
  have : lo + i < 16 := by omega
  rw [bits_getElem, place_getLsbD]
  simp [this, hi]

/-- Nothing of a field reaches the bits above it. -/
@[simp] theorem bits_place_below {k lo lo' : Nat} (f : BitVec k) (n : Nat) (below : lo' + k ≤ lo) :
    bits (place f lo') lo n = 0#n := by
  ext i hi
  have : k ≤ lo + i - lo' := by omega
  rw [bits_getElem, place_getLsbD, BitVec.getLsbD_of_ge f _ this]
  simp

/-- Nothing of a field reaches the bits below it. -/
@[simp] theorem bits_place_above {k lo lo' n : Nat} (f : BitVec k) (above : lo + n ≤ lo') :
    bits (place f lo') lo n = 0#n := by
  ext i hi
  have : ¬ lo' ≤ lo + i := by omega
  rw [bits_getElem, place_getLsbD]
  simp [this]

/-- A field put back where it was cut is its bits of the word, with the others cleared. -/
theorem place_bits (w : Word) (lo n : Nat) : place (bits w lo n) lo = w &&& place (BitVec.allOnes n) lo := by
  refine BitVec.eq_of_getLsbD_eq fun i hi => ?_
  rw [BitVec.getLsbD_and, place_getLsbD, place_getLsbD, BitVec.getLsbD_allOnes]
  by_cases hlo : lo ≤ i
  · simp [bits, hlo, hi, Bool.and_comm]
  · simp [hlo]

@[simp] theorem regBits_regField (w : Word) (lo : Nat) : regBits (regField w lo) = bits w lo 3 := rfl

theorem getLsbD_of_bit {w : Word} {lo : Nat} {f : BitVec 1} (h : bits w lo 1 = f) : w.getLsbD lo = f.getLsbD 0 := by
  rw [← h, bits, BitVec.getLsbD_extractLsb']
  rfl

theorem bits_of_bit {w : Word} {lo : Nat} {b : Bool} (h : w.getLsbD lo = b) : bits w lo 1 = BitVec.ofBool b := by
  ext i hi
  obtain rfl : i = 0 := by omega
  simpa using h

/-- The value of the opcode field of each opcode (R89). -/
def Opcode.code : Opcode → BitVec 4
  | .br => 0x0 | .add => 0x1 | .ld => 0x2 | .st => 0x3 | .jsr => 0x4 | .and => 0x5 | .ldr => 0x6 | .str => 0x7
  | .rti => 0x8 | .not => 0x9 | .ldi => 0xA | .sti => 0xB | .jmp => 0xC | .res => 0xD | .lea => 0xE | .trap => 0xF

theorem code_of_opcodeMap : ∀ f : BitVec 4, opcodeMap[f.toFin].code = f := by decide

/-- The opcode field of a word is the code of its opcode. -/
theorem bits_of_opcode {w : Word} {op : Opcode} (h : opcodeOf w = op) : bits w 12 4 = op.code := by
  rw [← h, opcodeOf, code_of_opcodeMap]

end Sys2Proof
end

section
/-! The format of an instruction (R73 to R83) as the list of its fields, and the round trips between words and
instructions through it. -/
namespace Sys2Proof

/-- A field of a format: its lowest bit and its width. -/
abbrev Field := Nat × Nat

/-- The fields of an instruction's format that the decoder reads: the opcode, the operands and a mode bit (R73 to
R83). -/
def fieldsOf : Instr → List Field
  | .addReg _ _ _ | .andReg _ _ _ => [(12, 4), (9, 3), (6, 3), (5, 1), (0, 3)]
  | .addImm _ _ _ | .andImm _ _ _ => [(12, 4), (9, 3), (6, 3), (5, 1), (0, 5)]
  | .not _ _ => [(12, 4), (9, 3), (6, 3)]
  | .br _ _ | .ld _ _ | .ldi _ _ | .lea _ _ | .st _ _ | .sti _ _ => [(12, 4), (9, 3), (0, 9)]
  | .jmp _ | .ret => [(12, 4), (6, 3)]
  | .jsr _ => [(12, 4), (11, 1), (0, 11)]
  | .jsrr _ => [(12, 4), (11, 1), (6, 3)]
  | .ldr _ _ _ | .str _ _ _ => [(12, 4), (9, 3), (6, 3), (0, 6)]
  | .trap _ => [(12, 4), (0, 8)]
  | .rti _ | .res _ => [(12, 4), (0, 12)]

theorem fieldsOf_fit (i : Instr) : ∀ f ∈ fieldsOf i, f.1 + f.2 ≤ 16 := by
  cases i <;> simp [fieldsOf]

/-- The care bits of an instruction's row are the bits of its fields. -/
theorem care_iff_in_field (i : Instr) :
    ∀ j < 16, (rowOf i).care.getLsbD j = true ↔ ∃ f ∈ fieldsOf i, f.1 ≤ j ∧ j < f.1 + f.2 := by
  cases i <;> simp only [rowOf, fieldsOf] <;> decide

/-- Two words hold the same in every field of an instruction's format. -/
def SameFields (i : Instr) (a b : Word) : Prop := ∀ f ∈ fieldsOf i, bits a f.1 f.2 = bits b f.1 f.2

theorem agree_iff_sameFields {i : Instr} {a b : Word} :
    a &&& (rowOf i).care = b &&& (rowOf i).care ↔ SameFields i a b := by
  constructor
  · intro agree f hf
    have fits := fieldsOf_fit i f hf
    exact bits_of_agree agree fun j hj => (care_iff_in_field i (f.1 + j) (by omega)).mpr ⟨f, hf, by omega, by omega⟩
  · intro same
    refine BitVec.eq_of_getLsbD_eq fun j hj => ?_
    rw [BitVec.getLsbD_and, BitVec.getLsbD_and]
    cases reads : (rowOf i).care.getLsbD j with
    | false => rw [Bool.and_false, Bool.and_false]
    | true =>
      obtain ⟨f, hf, hlo, hhi⟩ := (care_iff_in_field i j hj).mp reads
      have hbit : (bits a f.1 f.2)[j - f.1] = (bits b f.1 f.2)[j - f.1] := by simp only [same f hf]
      rw [bits_getElem, bits_getElem, Nat.add_sub_cancel' hlo] at hbit
      rw [hbit]

/-- A word with the fields of a well-formed instruction decodes to it. -/
theorem decode_of_sameFields {i : Instr} (wf : wellFormed i = true) {w : Word} (same : SameFields i w (encode i)) :
    decode w = i := by
  cases i with
    simp only [SameFields, fieldsOf, encode, opRegWord, noneWord, List.mem_cons, List.not_mem_nil, or_false,
      forall_eq_or_imp, forall_eq, bits_or, bits_place_same, bits_place_below, bits_place_above, Nat.reduceAdd,
      Nat.reduceLeDiff, le_refl, zero_add, BitVec.or_zero, BitVec.zero_or] at same
  | addReg | andReg =>
    obtain ⟨op, hdr, hsr1, mode, hsr2⟩ := same
    rw [decode, opcodeOf_eq op, getLsbD_of_bit mode, regField_eq hdr, regField_eq hsr1, regField_eq hsr2]
    rfl
  | addImm | andImm =>
    obtain ⟨op, hdr, hsr1, mode, himm⟩ := same
    rw [decode, opcodeOf_eq op, getLsbD_of_bit mode, regField_eq hdr, regField_eq hsr1, himm]
    rfl
  | not =>
    obtain ⟨op, hdr, hsr1⟩ := same
    rw [decode, opcodeOf_eq op, regField_eq hdr, regField_eq hsr1]
    rfl
  | br =>
    obtain ⟨op, hnzp, hoff⟩ := same
    rw [decode, opcodeOf_eq op, hnzp, hoff]
    rfl
  | ld | ldi | lea | st | sti =>
    obtain ⟨op, hreg, hoff⟩ := same
    rw [decode, opcodeOf_eq op, regField_eq hreg, hoff]
    rfl
  | ldr | str =>
    obtain ⟨op, hreg, hbase, hoff⟩ := same
    rw [decode, opcodeOf_eq op, regField_eq hreg, regField_eq hbase, hoff]
    rfl
  | jmp base =>
    obtain ⟨op, hbase⟩ := same
    have other : base ≠ 7 := by simpa [wellFormed] using wf
    rw [decode, opcodeOf_eq op, regField_eq hbase, if_neg other]
    rfl
  | ret =>
    obtain ⟨op, hbase⟩ := same
    rw [decode, opcodeOf_eq op, regField_eq hbase]
    rfl
  | jsr =>
    obtain ⟨op, mode, hoff⟩ := same
    rw [decode, opcodeOf_eq op, getLsbD_of_bit mode, hoff]
    rfl
  | jsrr =>
    obtain ⟨op, mode, hbase⟩ := same
    rw [decode, opcodeOf_eq op, getLsbD_of_bit mode, regField_eq hbase]
    rfl
  | trap | rti | res =>
    obtain ⟨op, hlow⟩ := same
    rw [decode, opcodeOf_eq op, hlow]
    rfl

/-- Settles O5: an encoded word has its own fields. -/
theorem decodeEncodeRoundTrip : Obligations.DecodeEncodeRoundTrip :=
  fun _ wf => decode_of_sameFields wf fun _ _ => rfl

theorem wellFormed_decode (w : Word) : wellFormed (decode w) = true := by
  cases op : opcodeOf w with simp only [decode, op]
  | add | and | jsr => split <;> rfl
  | jmp =>
    split
    · rfl
    · next other => simpa [wellFormed] using other
  | br | ld | st | ldr | str | rti | not | ldi | sti | res | lea | trap => rfl

/-- The canonical word of the decoded instruction has the word's fields. -/
theorem encode_decode_sameFields (w : Word) : SameFields (decode w) (encode (decode w)) w := by
  cases op : opcodeOf w with simp only [decode, op]
  | br | ld | st | ldr | str | rti | not | ldi | sti | res | lea | trap =>
    simp [SameFields, fieldsOf, encode, opRegWord, noneWord, bits_of_opcode op, Opcode.code]
  | add | and | jsr =>
    split
    case isTrue mode =>
      simp [SameFields, fieldsOf, encode, opRegWord, bits_of_opcode op, Opcode.code, bits_of_bit mode]
    case isFalse mode =>
      have mode' := Bool.eq_false_iff.mpr mode
      simp [SameFields, fieldsOf, encode, opRegWord, bits_of_opcode op, Opcode.code, bits_of_bit mode']
  | jmp =>
    split
    case isTrue base =>
      have field : bits w 6 3 = regBits 7 := congrArg regBits base
      simp [SameFields, fieldsOf, encode, bits_of_opcode op, Opcode.code, field]
    case isFalse =>
      simp [SameFields, fieldsOf, encode, bits_of_opcode op, Opcode.code]

theorem encode_decode_agrees (w : Word) :
    encode (decode w) &&& (rowOf (decode w)).care = w &&& (rowOf (decode w)).care :=
  agree_iff_sameFields.mpr (encode_decode_sameFields w)

/-- Settles O6: the two words have the same fields. -/
theorem everyWordDecodesAndReencodes : Obligations.EveryWordDecodesAndReencodes :=
  fun w => ⟨wellFormed_decode w, encode_decode_agrees w⟩

/-- Settles O4: a word that agrees with `w` has the fields of `w`, which are those of the instruction `w` decodes to. -/
theorem dontCareBitsAreIgnored : Obligations.DontCareBitsAreIgnored := by
  intro w w' agree
  have agrees : w' &&& (rowOf (decode w)).care = encode (decode w) &&& (rowOf (decode w)).care :=
    agree.symm.trans (encode_decode_agrees w).symm
  exact decode_of_sameFields (wellFormed_decode w) (agree_iff_sameFields.mp agrees)

end Sys2Proof
end

section
/-! The opcode table (30_encoding.md section 4, R89): what the fixed bits of each row make the decoder answer, and
that each word has those of one row. -/
namespace Sys2Proof

/-- The opcode is read from bits 15:12 alone, so a mask over them fixes it. -/
theorem opcodeOf_of_mask {w mask pattern : Word} (fixed : w &&& mask = pattern)
    (covers : ∀ i, i < 4 → mask.getLsbD (12 + i) = true := by decide) : opcodeOf w = opcodeOf pattern :=
  opcodeOf_congr (bits_of_mask fixed covers)

/-- The words of RET are those of its row: the row's care bits are its mask (R151). -/
theorem decode_eq_ret_iff {w : Word} : decode w = .ret ↔ w &&& 0xF1C0 = 0xC1C0 := by
  constructor
  · intro ret
    have agrees := encode_decode_agrees w
    rw [ret] at agrees
    exact agrees.symm
  · intro fixed
    have agrees : w &&& (rowOf .ret).care = encode .ret &&& (rowOf .ret).care := fixed
    exact decode_of_sameFields rfl (agree_iff_sameFields.mp agrees)

theorem decode_jmp_of_mask {w : Word} (fixed : w &&& 0xF000 = 0xC000) (notRet : w &&& 0xF1C0 ≠ 0xC1C0) :
    decode w = .jmp (regField w 6) := by
  have decoded : decode w = if regField w 6 = 7 then .ret else .jmp (regField w 6) := by
    rw [decode, opcodeOf_of_mask fixed]
    rfl
  have other : regField w 6 ≠ 7 := fun base => notRet (decode_eq_ret_iff.mp (by rw [decoded, if_pos base]))
  rw [decoded, if_neg other]

theorem decode_rti_of_mask {w : Word} (fixed : w &&& 0xF000 = 0x8000) : decode w = .rti (bits w 0 12) := by
  rw [decode, opcodeOf_of_mask fixed]
  rfl

theorem decode_res_of_mask {w : Word} (fixed : w &&& 0xF000 = 0xD000) : decode w = .res (bits w 0 12) := by
  rw [decode, opcodeOf_of_mask fixed]
  rfl

/-- Settles O2: a row's mask fixes the opcode and, where the format has one, the mode bit; RET's row fixes the base
field as well. -/
theorem decodeFollowsTheOpcodeTable : Obligations.DecodeFollowsTheOpcodeTable := by
  intro w reg
  refine ⟨?addReg, ?addImm, ?andReg, ?andImm, ?not, ?br, decode_jmp_of_mask, decode_eq_ret_iff.mpr, ?jsr, ?jsrr,
    ?ld, ?ldi, ?ldr, ?lea, ?st, ?sti, ?str, ?trap, decode_rti_of_mask, decode_res_of_mask⟩
  case addReg | addImm | andReg | andImm =>
    intro fixed
    rw [decode, opcodeOf_of_mask fixed, getLsbD_of_mask (i := 5) fixed (by decide)]
    rfl
  case jsr | jsrr =>
    intro fixed
    rw [decode, opcodeOf_of_mask fixed, getLsbD_of_mask (i := 11) fixed (by decide)]
    rfl
  case not | br | ld | ldi | ldr | lea | st | sti | str | trap =>
    intro fixed
    rw [decode, opcodeOf_of_mask fixed]
    rfl

/-- The masks of the rows read the opcode, bit 11 and bit 5, and nothing else. -/
theorem matches_of_read_bits {r : Row} (core : r ∈ coreRows) (w : Word) : r.matches w = r.matches (w &&& 0xF820) := by
  have reads : ∀ r ∈ coreRows, 0xF820 &&& r.mask = r.mask := by decide
  rw [Row.matches, Row.matches, BitVec.and_assoc, reads r core]

theorem read_bits_eq_place (w : Word) :
    w &&& 0xF820 = place (bits w 12 4) 12 ||| place (bits w 11 1) 11 ||| place (bits w 5 1) 5 := by
  rw [place_bits, place_bits, place_bits, ← BitVec.and_or_distrib_left, ← BitVec.and_or_distrib_left]
  rfl

/-- The sixty-four values of the bits the masks read. -/
theorem one_row_of_read_bits : ∀ (op : BitVec 4) (b11 b5 : BitVec 1), ∃ r ∈ coreRows,
    r.matches (place op 12 ||| place b11 11 ||| place b5 5) = true ∧
      ∀ q ∈ coreRows, q.matches (place op 12 ||| place b11 11 ||| place b5 5) = true → q = r := by
  decide

/-- Settles O3: which row a word matches is seen from the bits the masks read. -/
theorem everyWordMatchesExactlyOneRow : Obligations.EveryWordMatchesExactlyOneRow := by
  intro w
  obtain ⟨r, core, hit, only⟩ := one_row_of_read_bits (bits w 12 4) (bits w 11 1) (bits w 5 1)
  rw [← read_bits_eq_place] at hit only
  refine ⟨r, core, matches_of_read_bits core w ▸ hit, fun q hq hits => only q hq ?_⟩
  rw [← matches_of_read_bits hq, hits]

/-- Settles O1: the sixteen words are decoded by evaluation. -/
theorem specExampleWordsDecode : Obligations.SpecExampleWordsDecode := by
  unfold Obligations.SpecExampleWordsDecode
  decide

end Sys2Proof
end

section
/-! What a trap call does in the bounds of the service (46_trap_unsupported.md R232), and the obligations about TRAP. -/
namespace Sys2Proof.Machine

/-- TRAP applies what the service answers (R230). -/
theorem exec_trap (vect8 : BitVec 8) (s : State) : exec (.trap vect8) s = execTrap vect8 s := rfl

/-- Settles O38: each bound is read off the one outcome applied. -/
theorem trapServiceIsBounded : Obligations.TrapServiceIsBounded := by
  intro vect8 s t next
  obtain ⟨o, -, mem, -, keeps, pos, zro, neg, halts, goesOn, pc, -⟩ := execTrap_next next
  refine ⟨pc, mem, ?_, ?_⟩
  · match c : o.cond with
    | none => exact .inl (keeps c)
    | some .pos => exact .inr (.inl (pos c))
    | some .zro => exact .inr (.inr (.inl (zro c)))
    | some .neg => exact .inr (.inr (.inr (neg c)))
  · cases halt : o.halt with
    | false => exact .inl (goesOn halt)
    | true => exact .inr (halts halt)

/-- Settles O36: the answer at the head of the queue is the outcome of the call. -/
theorem trapTakesTheOfferedOutcome : Obligations.TrapTakesTheOfferedOutcome := by
  intro vect8 s o rest queued
  have call : s.trapCall vect8 = .outcome o := by rw [State.trapCall, queued]
  obtain ⟨t, next, takes, answers, -⟩ := execTrap_outcome call
  exact ⟨t, next, takes, by rw [answers, queued, List.tail_cons]⟩

/-- A queued "no outcome" leaves the core stuck (R231). -/
theorem exec_trap_stuck (vect8 : BitVec 8) {s : State} (none : s.svcAnswers.head? = some .noOutcome) :
    exec (.trap vect8) s = .fault .trapStuck := by
  rw [exec_trap, execTrap, trapCall_noOutcome.mpr none]

/-- Settles O37: with an empty queue the outcome of the call is the free one. -/
theorem trapTakesAFreeOutcomeOrIsStuck : Obligations.TrapTakesAFreeOutcomeOrIsStuck := by
  refine ⟨fun vect8 s empty => ?_, fun vect8 s rest queued => exec_trap_stuck vect8 (by rw [queued, List.head?_cons])⟩
  have call : s.trapCall vect8 = .outcome (Config.trapOutcome s.svcCalls vect8 s.trapView) := by
    rw [State.trapCall, empty]
  obtain ⟨t, next, takes, -⟩ := execTrap_outcome call
  exact ⟨_, t, next, takes⟩

end Sys2Proof.Machine
end

section
/-! Every instruction but TRAP as one equation: the state it leads to, field by field, in the terms of Safety.lean. -/
namespace Sys2Proof.Machine

/-- The value the register write port writes: the result of the instruction, or the link of a call (R121, R210). -/
def destValue (i : Instr) (s : State) : Word :=
  match i with
  | .addReg _ sr1 sr2 => s.reg sr1 + s.reg sr2
  | .addImm _ sr1 imm5 => s.reg sr1 + sext imm5
  | .andReg _ sr1 sr2 => s.reg sr1 &&& s.reg sr2
  | .andImm _ sr1 imm5 => s.reg sr1 &&& sext imm5
  | .not _ sr1 => ~~~ s.reg sr1
  | .ld _ off9 => s.load (s.pcOff9 off9)
  | .ldi _ off9 => s.load (s.pointer off9)
  | .ldr _ base off6 => s.load (s.baseOff6 base off6)
  | .lea _ off9 => s.pcOff9 off9
  | .jsr _ | .jsrr _ => s.pc
  | .br _ _ | .jmp _ | .ret | .st _ _ | .sti _ _ | .str _ _ _ | .trap _ | .rti _ | .res _ => 0

/-- The record the two unsupported opcodes leave (R251). -/
def unsupportedRecord (i : Instr) (s : State) : Option HaltReason :=
  match i with
  | .rti low12 => some (.unsupported 0x8 (encode (.rti low12)) (s.pc - 1))
  | .res low12 => some (.unsupported 0xD (encode (.res low12)) (s.pc - 1))
  | .addReg _ _ _ | .addImm _ _ _ | .andReg _ _ _ | .andImm _ _ _ | .not _ _ => none
  | .br _ _ | .jmp _ | .ret | .jsr _ | .jsrr _ | .ld _ _ | .ldi _ _ | .ldr _ _ _ | .lea _ _ => none
  | .st _ _ | .sti _ _ | .str _ _ _ | .trap _ => none

/-- The state an instruction but TRAP leads to: one register, pc by the mux, the flags of the register's value, one
word of memory, and a record with HALTED. -/
def after (i : Instr) (s : State) : State where
  regs := (destOf i).elim s.regs fun r => s.regs.set r (destValue i s)
  pc := pcMux i s
  cond := (flagDest i).elim s.cond fun _ => flagBits (flagOf (destValue i s))
  run := (unsupportedRecord i s).elim s.run fun _ => .halted
  haltReason := (unsupportedRecord i s).or s.haltReason
  mem := (storeOf i s).elim s.mem fun c => Memory.write s.mem c.1 c.2
  svcAnswers := s.svcAnswers
  svcCalls := s.svcCalls

/-- BR is a jump to what the mux selects: the incremented pc when it is not taken (R152). -/
theorem exec_br (nzp : BitVec 3) (off9 : BitVec 9) (s : State) :
    exec (.br nzp off9) s = .next (s.setPc (pcMux (.br nzp off9) s)) := by
  by_cases clear : nzp &&& s.cond = 0#3
  · simp [exec, execBr, State.branchTaken, pcMux, clear, State.setPc]
  · simp [exec, execBr, State.branchTaken, pcMux, clear, State.pcOff9]

theorem exec_eq_after {i : Instr} (notTrap : isTrap i = false) (s : State) : exec i s = .next (after i s) := by
  cases i with
  | trap => cases notTrap
  | br nzp off9 => exact exec_br nzp off9 s
  | addReg | addImm | andReg | andImm | not | jmp | ret | jsr | jsrr => rfl
  | ld | ldi | ldr | lea | st | sti | str | rti | res => rfl

theorem eq_after_of_next {i : Instr} {s t : State} (notTrap : isTrap i = false) (next : exec i s = .next t) :
    t = after i s := by
  rw [exec_eq_after notTrap, Host.Outcome.next.injEq] at next
  exact next.symm

/-- An instruction that answers a next state is a TRAP, or leads to the state `after` gives. -/
theorem exec_next_cases {i : Instr} {s t : State} (next : exec i s = .next t) :
    (∃ vect8, i = .trap vect8) ∨ t = after i s := by
  cases i with
  | trap vect8 => exact .inl ⟨vect8, rfl⟩
  | _ => exact .inr (eq_after_of_next rfl next)

theorem State.reg_set (s t : State) {q : Reg} {v : Word} (regs : t.regs = s.regs.set q v) (r : Reg) :
    t.reg r = if q = r then v else s.reg r := by
  have same : t.reg r = (s.setReg q v).reg r := by rw [State.reg, regs]; rfl
  rw [same]
  split
  case isTrue h => rw [h, State.setReg_reg_same]
  case isFalse h => exact s.setReg_reg_other v (Ne.symm h)

theorem after_reg (i : Instr) (s : State) (r : Reg) :
    (after i s).reg r = if destOf i = some r then destValue i s else s.reg r := by
  cases dest : destOf i with
  | none => simp [State.reg, after, dest]
  | some q => simpa using s.reg_set (after i s) (by rw [after, dest, Option.elim_some]) r

theorem after_mem_of_none {i : Instr} {s : State} (none : storeOf i s = none) : (after i s).mem = s.mem := by
  rw [after, none, Option.elim_none]

theorem after_load_of_some {i : Instr} {s : State} {a v : Word} (store : storeOf i s = some (a, v)) (b : Word) :
    (after i s).load b = if b = a then v else s.load b := by
  rw [← State.store_load, State.load, after, store]
  rfl

end Sys2Proof.Machine
end

section
/-! Which part of the state each instruction writes (10_state.md, 20_memory.md R60, 40_cycle.md R120, R121) and the
invariant of the step. -/
namespace Sys2Proof.Machine

/-- Settles O18: TRAP's service leaves pc alone, and any other instruction ends with the mux's pc. -/
theorem pcComesFromTheControlFlowMux : Obligations.PcComesFromTheControlFlowMux := by
  intro i s t next
  rcases exec_next_cases next with ⟨vect8, rfl⟩ | rfl
  · obtain ⟨pc, -⟩ := trapServiceIsBounded vect8 s t next
    exact pc
  · rfl

/-- Settles O20: the register file changes at the destination alone. -/
theorem onlyTheDestinationRegisterIsWritten : Obligations.OnlyTheDestinationRegisterIsWritten := by
  intro i s t notTrap next r other
  rw [eq_after_of_next notTrap next, after_reg, if_neg other]

/-- An instruction that is no store leaves memory alone. -/
theorem mem_of_no_store {i : Instr} {s t : State} (none : storeOf i s = none) (next : exec i s = .next t) :
    t.mem = s.mem := by
  rcases exec_next_cases next with ⟨vect8, rfl⟩ | rfl
  · obtain ⟨-, mem, -⟩ := trapServiceIsBounded vect8 s t next
    exact mem
  · exact after_mem_of_none none

/-- A store instruction writes its word at its address. -/
theorem load_of_store {i : Instr} {s t : State} {a v : Word} (store : storeOf i s = some (a, v))
    (next : exec i s = .next t) (b : Word) : t.load b = if b = a then v else s.load b := by
  rcases exec_next_cases next with ⟨vect8, rfl⟩ | rfl
  · cases store
  · exact after_load_of_some store b

/-- The loader's writes leave a word they are not meant for. -/
theorem Memory.read_loadImage_other (m : Memory) {image : List (Word × Word)} {a : Word}
    (other : ∀ c ∈ image, c.1 ≠ a) : Memory.read (Memory.loadImage m image) a = Memory.read m a := by
  induction image generalizing m with
  | nil => rfl
  | cons c image ih =>
    obtain ⟨hc, rest⟩ := List.forall_mem_cons.mp other
    have keeps : Memory.read (Memory.write m c.1 c.2) a = Memory.read m a := Memory.read_write_other m c.2 hc.symm
    exact (ih (Memory.write m c.1 c.2) rest).trans keeps

/-- With no address listed twice the last write of each word of the image stands. -/
theorem Memory.read_loadImage_mem (m : Memory) {image : List (Word × Word)} (once : (image.map Prod.fst).Nodup)
    {a v : Word} (listed : (a, v) ∈ image) : Memory.read (Memory.loadImage m image) a = v := by
  induction image generalizing m with
  | nil => cases listed
  | cons c image ih =>
    obtain ⟨fresh, once⟩ := List.nodup_cons.mp once
    rcases List.mem_cons.mp listed with rfl | listed
    · have other : ∀ d ∈ image, d.1 ≠ a := fun d hd same => fresh (List.mem_map.mpr ⟨d, hd, same⟩)
      exact (Memory.read_loadImage_other _ other).trans (Memory.read_write_same m a v)
    · exact ih _ once listed

theorem launch_load_other {p : LaunchParams} {service : List TrapAnswer} {a : Word} (other : ∀ c ∈ p.image, c.1 ≠ a) :
    (State.launch p service).load a = 0 :=
  Memory.read_loadImage_other [] other

/-- Settles O21: the store's word and its frame are the two cases of one load. -/
theorem onlyStoresWriteMemory : Obligations.OnlyStoresWriteMemory := by
  refine ⟨fun i s t none next => mem_of_no_store none next, fun i s t a v store next => ⟨?_, fun b other => ?_⟩,
    fun p service a other => launch_load_other other⟩
  · rw [load_of_store store next, if_pos rfl]
  · rw [load_of_store store next, if_neg other]

/-- What an instruction leaves in `cond` is what it found, or exactly one flag (R26). -/
theorem cond_kept_or_oneHot {i : Instr} {s t : State} (next : exec i s = .next t) :
    t.cond = s.cond ∨ condOneHot t.cond := by
  rcases exec_next_cases next with ⟨vect8, rfl⟩ | rfl
  · obtain ⟨-, -, cond, -⟩ := trapServiceIsBounded vect8 s t next
    exact cond
  · cases dest : flagDest i with
    | none => exact .inl (by rw [after, dest, Option.elim_none])
    | some dr =>
      right
      rw [after, dest]
      exact condOneHot_flagBits _

/-- Settles O19: `cond` is kept, or replaced by exactly one flag. -/
theorem oneFlagStaysSet : Obligations.OneFlagStaysSet := by
  intro s t oneHot next
  obtain ⟨-, next⟩ := step_next_iff.mp next
  rcases cond_kept_or_oneHot next with kept | oneHot'
  · rw [kept]
    exact oneHot
  · exact oneHot'

/-- An instruction leaves the run state and its record alone, or halts with a record. -/
theorem run_kept_or_halted {i : Instr} {s t : State} (next : exec i s = .next t) :
    (t.run = s.run ∧ t.haltReason = s.haltReason) ∨ (t.run = .halted ∧ t.haltReason.isSome = true) := by
  rcases exec_next_cases next with ⟨vect8, rfl⟩ | rfl
  · obtain ⟨-, -, -, kept | ⟨run, reason⟩⟩ := trapServiceIsBounded vect8 s t next
    · exact .inl kept
    · exact .inr ⟨run, by rw [reason, Option.isSome_some]⟩
  · cases record : unsupportedRecord i s with
    | none => exact .inl (by simp [after, record])
    | some reason => exact .inr (by simp [after, record])

theorem mem_wf_of_next {i : Instr} {s t : State} (wf : Memory.wf s.mem) (next : exec i s = .next t) :
    Memory.wf t.mem := by
  cases store : storeOf i s with
  | none => rwa [mem_of_no_store store next]
  | some c =>
    rcases exec_next_cases next with ⟨vect8, rfl⟩ | rfl
    · cases store
    · rw [after, store]
      exact Memory.write_wf c.1 c.2 wf

theorem exec_keeps_inv {i : Instr} {s t : State} (inv : s.Inv) (next : exec i s = .next t) : t.Inv where
  memWf := mem_wf_of_next inv.memWf next
  condOk := by
    rcases cond_kept_or_oneHot next with kept | oneHot
    · rw [kept]
      exact inv.condOk
    · exact condLegal_of_oneHot oneHot
  reasonIffHalted := by
    rcases run_kept_or_halted next with ⟨run, reason⟩ | ⟨run, reason⟩
    · rw [run, reason]
      exact inv.reasonIffHalted
    · simp [run, reason]

/-- Settles O51: the fetch-time increment touches nothing the invariant speaks of, and the instruction keeps it. -/
theorem everyStepKeepsTheInvariant : Obligations.EveryStepKeepsTheInvariant := by
  intro s t inv next
  obtain ⟨-, next⟩ := step_next_iff.mp next
  exact exec_keeps_inv (s := s.advance) ⟨inv.memWf, inv.condOk, inv.reasonIffHalted⟩ next

end Sys2Proof.Machine
end

section
/-! Launch, reset and the PSR view (10_state.md sections 4 and 6, 70_reset_and_hazards.md section 1). -/
namespace Sys2Proof.Machine

/-- INIT_COND is no flag or one (R33). -/
theorem condLegal_launchCond (c : Option Flag) : condLegal (launchCond c) := by
  cases c with
  | none => exact .inl rfl
  | some f => exact condLegal_of_oneHot (condOneHot_flagBits f)

/-- Settles O50: the loader's writes keep the canonical form. -/
theorem invariantHoldsAtLaunch : Obligations.InvariantHoldsAtLaunch := fun p _ =>
  { memWf := Memory.loadImage_wf p.image Memory.nil_wf
    condOk := condLegal_launchCond p.initCond
    reasonIffHalted := by simp [State.launch] }

/-- The launch that `State.reset` is (log entries 1 to 5). -/
def resetParams : LaunchParams := ⟨Config.resetGpr, none, Config.resetPc, []⟩

theorem launch_resetParams : State.launch resetParams [] = State.reset := rfl

/-- Settles O49: reset is a launch. -/
theorem invariantHoldsAtReset : Obligations.InvariantHoldsAtReset := by
  unfold Obligations.InvariantHoldsAtReset
  rw [← launch_resetParams]
  exact invariantHoldsAtLaunch resetParams []

/-- The PSR view is the zero extension of `cond` (R29). -/
theorem psr_eq_zext (s : State) : s.psr = zext s.cond := rfl

/-- Settles O13: the bits of a zero extension. -/
theorem psrShowsCondAndZeros : Obligations.PsrShowsCondAndZeros :=
  fun s _ hi => psr_eq_zext s ▸ zext_getLsbD s.cond hi

theorem psr_high_bits (s : State) : s.psr.extractLsb' 3 13 = 0 := by
  ext i hi
  have high : s.psr.getLsbD (3 + i) = false := by
    rw [psrShowsCondAndZeros s (3 + i) (by omega), if_neg (by omega)]
  simpa using high

/-- Settles O47: the values are those of the launch that reset is. -/
theorem resetHoldsTheSpecValues : Obligations.ResetHoldsTheSpecValues :=
  ⟨rfl, rfl, fun _ => rfl, psr_high_bits _, resetParams, launch_resetParams⟩

/-- Settles O48: every field but memory is a parameter, and memory is what the loader's writes leave. -/
theorem launchHoldsTheParameters : Obligations.LaunchHoldsTheParameters := by
  intro p service once s
  have cond : s.cond = launchCond p.initCond := rfl
  refine ⟨fun _ => rfl, rfl, ?none, ?pos, ?zro, ?neg, rfl, rfl, psr_high_bits s,
    fun a v listed => Memory.read_loadImage_mem [] once listed, fun a unlisted => ?_⟩
  case none | pos | zro | neg =>
    intro init
    rw [cond, init]
    rfl
  exact launch_load_other fun c hc same => unlisted (List.mem_map.mpr ⟨c, hc, same⟩)

end Sys2Proof.Machine
end

section
/-! What each instruction does and all it does (41_operate.md to 45_subroutine.md): every one is a shared operation of
the model, whose lemma in Laws/Ops says the rest. -/
namespace Sys2Proof.Machine

theorem loadFrom_spec (dr : Reg) (a : Word) (s : State) :
    ∃ t, loadFrom dr a s = .next t ∧ writesDest dr (s.load a) s t :=
  ⟨_, rfl, s.writeDest_spec dr (s.load a)⟩

theorem operate_spec (op : AluOp) (dr sr1 : Reg) (b : Operand2) (s : State) :
    ∃ t, operate op dr sr1 b s = .next t ∧ writesDest dr (alu op (s.reg sr1) (s.operand2 b)) s t :=
  ⟨_, rfl, s.writeDest_spec dr _⟩

theorem jumpThrough_spec (base : Reg) (s : State) : ∃ t, jumpThrough base s = .next t ∧ jumpsTo (s.reg base) s t :=
  ⟨_, rfl, s.setPc_spec (s.reg base)⟩

theorem storeTo_spec (sr : Reg) (a : Word) (s : State) :
    ∃ t, storeTo sr a s = .next t ∧ storesAt a (s.reg sr) s t :=
  ⟨_, rfl, s.store_spec a (s.reg sr)⟩

/-- Settles O22: both modes are the ALU's sum. -/
theorem addWritesTheSum : Obligations.AddWritesTheSum :=
  ⟨fun dr sr1 sr2 s => operate_spec .add dr sr1 (.reg sr2) s,
    fun dr sr1 imm5 s => operate_spec .add dr sr1 (.imm imm5) s⟩

/-- Settles O23: both modes are the ALU's conjunction. -/
theorem andWritesTheConjunction : Obligations.AndWritesTheConjunction :=
  ⟨fun dr sr1 sr2 s => operate_spec .and dr sr1 (.reg sr2) s,
    fun dr sr1 imm5 s => operate_spec .and dr sr1 (.imm imm5) s⟩

/-- Settles O24: a register write of the ALU's complement. -/
theorem notWritesTheComplement : Obligations.NotWritesTheComplement :=
  fun dr sr1 s => ⟨_, rfl, s.writeDest_spec dr (~~~ s.reg sr1)⟩

/-- Settles O25: RET is the jump through R7. -/
theorem jmpAndRetJumpThroughARegister : Obligations.JmpAndRetJumpThroughARegister :=
  ⟨jumpThrough_spec, jumpThrough_spec 7, fun _ => rfl⟩

/-- Settles O26: the mux selects by the masked flags. -/
theorem brBranchesOnTheMaskedFlags : Obligations.BrBranchesOnTheMaskedFlags := by
  intro nzp off9 s
  refine ⟨_, exec_br nzp off9 s, fun taken => ?_, fun clear => ?_⟩
  · have target : pcMux (.br nzp off9) s = s.pc + sext off9 := if_pos taken
    rw [target]
    exact s.setPc_spec _
  · have target : pcMux (.br nzp off9) s = s.pc := if_neg (not_not.mpr clear)
    rw [target]
    exact s.setPc_spec _

/-- Settles O27: a load from the PC-relative address. -/
theorem ldLoadsPcRelative : Obligations.LdLoadsPcRelative :=
  fun dr off9 s => loadFrom_spec dr (s.pcOff9 off9) s

/-- Settles O28: a load from the pointer. -/
theorem ldiLoadsThroughThePointer : Obligations.LdiLoadsThroughThePointer :=
  fun dr off9 s => loadFrom_spec dr (s.pointer off9) s

/-- Settles O29: a load from the address of the old base. -/
theorem ldrLoadsBasePlusOffset : Obligations.LdrLoadsBasePlusOffset :=
  fun dr base off6 s => loadFrom_spec dr (s.baseOff6 base off6) s

/-- Settles O30: a register write of the address itself. -/
theorem leaWritesTheAddress : Obligations.LeaWritesTheAddress :=
  fun dr off9 s => ⟨_, rfl, s.writeDest_spec dr (s.pcOff9 off9), rfl⟩

/-- Settles O31: a store to the PC-relative address. -/
theorem stStoresPcRelative : Obligations.StStoresPcRelative :=
  fun sr off9 s => storeTo_spec sr (s.pcOff9 off9) s

/-- Settles O32: a store to the pointer. -/
theorem stiStoresThroughThePointer : Obligations.StiStoresThroughThePointer :=
  fun sr off9 s => storeTo_spec sr (s.pointer off9) s

/-- Settles O33: a store to the address of the base. -/
theorem strStoresBasePlusOffset : Obligations.StrStoresBasePlusOffset :=
  fun sr base off6 s => storeTo_spec sr (s.baseOff6 base off6) s

/-- Settles O34: a call of the PC-relative target. -/
theorem jsrLinksAndJumps : Obligations.JsrLinksAndJumps :=
  fun off11 s => callTo_spec s (s.pcOff11 off11)

/-- Settles O35: a call of the old base. -/
theorem jsrrLinksAndJumpsThroughTheOldBase : Obligations.JsrrLinksAndJumpsThroughTheOldBase :=
  fun base s => callTo_spec s (s.reg base)

end Sys2Proof.Machine
end

section
/-! Signed values of fields, the register file, and memory as the list of its words (20_memory.md section 1). -/
namespace Sys2Proof.Machine

/-- Settles O8: sign extension to a greater width keeps the signed value, whose range is the field's. -/
theorem sextKeepsTheSignedValue : Obligations.SextKeepsTheSignedValue := by
  intro n f _ fits
  have value : (sext f).toInt = f.toInt := BitVec.toInt_signExtend_of_le fits
  rw [value]
  exact ⟨rfl, BitVec.le_toInt f, BitVec.toInt_lt⟩

/-- Settles O11: the register written and the others. -/
theorem registerWriteThenRead : Obligations.RegisterWriteThenRead := by
  intro s r q v
  split
  case isTrue same => rw [same, State.setReg_reg_same]
  case isFalse other => exact s.setReg_reg_other v other

/-- In a memory with rising addresses a listed word is the one its address reads as. -/
theorem Memory.lookup_of_mem {m : Memory} (rising : m.Pairwise (fun a b => a.1 < b.1)) {c : Cell} (listed : c ∈ m) :
    Memory.lookup m c.1 = c.2 := by
  induction m with
  | nil => cases listed
  | cons d m ih =>
    obtain ⟨above, rising⟩ := List.pairwise_cons.mp rising
    rcases List.mem_cons.mp listed with rfl | listed
    · exact if_pos rfl
    · exact (if_neg (above c listed).ne).trans (ih rising listed)

/-- An address that reads as something else than an unlisted one is listed. -/
theorem Memory.mem_of_lookup {m : Memory} {k : Nat} (word : Memory.lookup m k ≠ Memory.unlisted) :
    (k, Memory.lookup m k) ∈ m := by
  induction m with
  | nil => exact absurd rfl word
  | cons c m ih =>
    rw [Memory.lookup] at word ⊢
    split at word
    case isTrue here => simp [← here]
    case isFalse away =>
      rw [if_neg away]
      exact List.mem_cons_of_mem c (ih word)

/-- The words a canonical memory lists are listed in every memory that reads alike. -/
theorem Memory.mem_of_reads {m m' : Memory} (wf : Memory.wf m) (reads : ∀ a, Memory.read m a = Memory.read m' a)
    {c : Cell} (listed : c ∈ m) : c ∈ m' := by
  obtain ⟨rising, bounds⟩ := wf
  obtain ⟨bound, word⟩ := bounds c listed
  have address : (BitVec.ofNat 16 c.1).toNat = c.1 := Nat.mod_eq_of_lt bound
  have value : Memory.lookup m' c.1 = c.2 := by
    have read := reads (BitVec.ofNat 16 c.1)
    rw [Memory.read, Memory.read, address, Memory.lookup_of_mem rising listed] at read
    exact read.symm
  simpa only [value] using Memory.mem_of_lookup (m := m') (k := c.1) (by rwa [value])

theorem Memory.nodup_of_wf {m : Memory} (wf : Memory.wf m) : m.Nodup :=
  List.Pairwise.imp (fun below equal => below.ne (congrArg Prod.fst equal)) wf.1

/-- Settles O10: the two memories list the same words, each in the order of the addresses. -/
theorem canonicalMemoryIsDeterminedByItsReads : Obligations.CanonicalMemoryIsDeterminedByItsReads := by
  intro m m' wf wf' reads
  have same : ∀ c, c ∈ m ↔ c ∈ m' := fun c =>
    ⟨Memory.mem_of_reads wf reads, Memory.mem_of_reads wf' fun a => (reads a).symm⟩
  have perm : m.Perm m' := (List.perm_ext_iff_of_nodup (Memory.nodup_of_wf wf) (Memory.nodup_of_wf wf')).mpr same
  exact perm.eq_of_pairwise (fun a b _ _ below above => absurd below above.not_gt) wf.1 wf'.1

end Sys2Proof.Machine
end

section
/-! Runs of the machine, when a step stops, and how it halts (40_cycle.md R115, 46_trap_unsupported.md). -/
namespace Sys2Proof.Machine

theorem step_of_halted {s : State} (halted : s.run = .halted) : step s = .fault .halted := by
  rw [step, halted]

theorem run_of_next {s t : State} (k : Nat) (next : step s = .next t) :
    Host.Core.run core (k + 1) s = Host.Core.run core k t := by
  have next' : core.step s = .next t := next
  simp only [Host.Core.run, next']

theorem run_of_fault {s : State} {f : Fault} (k : Nat) (stops : step s = .fault f) :
    Host.Core.run core (k + 1) s = .fault f := by
  have stops' : core.step s = .fault f := stops
  simp only [Host.Core.run, stops']

/-- Settles O15: the first step already stops. -/
theorem haltedCoreHasNoStep : Obligations.HaltedCoreHasNoStep :=
  fun _ k halted => run_of_fault k (step_of_halted halted)

theorem exec_jmp (base : Reg) (s : State) : exec (.jmp base) s = .next (s.setPc (s.reg base)) := rfl

/-- Settles O46: the jump undoes the fetch-time increment, so one step leaves the state as it is. -/
theorem jumpToItselfRunsForever : Obligations.JumpToItselfRunsForever := by
  intro s base k running jump itself
  have stays : step s = .next s := by
    rw [step_of_running running, jump, exec_jmp, State.advance_reg, itself]
    rfl
  induction k with
  | zero => rfl
  | succ k ih => rw [run_of_next k stays, ih]

/-- The core is at a TRAP whose service offers no outcome (R231). -/
def State.AtStuckTrap (s : State) : Prop := (∃ v, decode s.fetch = .trap v) ∧ s.svcAnswers.head? = some .noOutcome

theorem step_of_stuck {s : State} (running : s.run = .running) (stuck : s.AtStuckTrap) :
    step s = .fault .trapStuck := by
  obtain ⟨⟨v, trap⟩, none⟩ := stuck
  rw [step_of_running running, trap]
  exact exec_trap_stuck v none

theorem step_of_not_stuck {s : State} (running : s.run = .running) (free : ¬ s.AtStuckTrap) :
    ∃ t, step s = .next t := by
  rw [step_of_running running]
  rcases exec_next_or_stuck (decode s.fetch) s.advance with next | ⟨-, trap, none⟩
  · exact next
  · exact absurd ⟨trap, none⟩ free

/-- Settles O16: a halted core, a core at a stuck TRAP and any other each stop or go on in one way. -/
theorem stepStopsOnlyWhenHaltedOrStuck : Obligations.StepStopsOnlyWhenHaltedOrStuck := by
  intro s
  change _ ∧ (_ ↔ _ ∧ s.AtStuckTrap) ∧ (_ ↔ _ ∧ ¬ s.AtStuckTrap)
  cases run : s.run with
  | halted => simp [step_of_halted run]
  | running =>
    by_cases stuck : s.AtStuckTrap
    · simp [step_of_stuck run stuck, stuck]
    · obtain ⟨t, next⟩ := step_of_not_stuck run stuck
      simp [next, stuck]

/-- RTI and RES carry the whole word they were decoded from (log entry 8). -/
theorem encode_of_decode_unsupported {w : Word} {low12 : BitVec 12} {i : Instr}
    (unsupported : i = .rti low12 ∨ i = .res low12) (decoded : decode w = i) : encode i = w := by
  have agrees := encode_decode_agrees w
  rw [decoded] at agrees
  have care : (rowOf i).care = BitVec.allOnes 16 := by rcases unsupported with rfl | rfl <;> rfl
  rwa [care, BitVec.and_allOnes, BitVec.and_allOnes] at agrees

theorem unsupportedRecord_cases {i : Instr} {s : State} {r : HaltReason} (record : unsupportedRecord i s = some r) :
    ∃ low12, (i = .rti low12 ∨ i = .res low12) ∧ r = .unsupported (bits (encode i) 12 4) (encode i) (s.pc - 1) := by
  cases i with
  | rti low12 =>
    refine ⟨low12, .inl rfl, ?_⟩
    have op : bits (encode (.rti low12)) 12 4 = 0x8 := by simp [encode, noneWord]
    rw [op]
    exact (Option.some.inj record).symm
  | res low12 =>
    refine ⟨low12, .inr rfl, ?_⟩
    have op : bits (encode (.res low12)) 12 4 = 0xD := by simp [encode, noneWord]
    rw [op]
    exact (Option.some.inj record).symm
  | _ => cases record

/-- Settles O17: what halts a running core leaves its record. -/
theorem onlyTrapOrUnsupportedOpcodeHalts : Obligations.OnlyTrapOrUnsupportedOpcodeHalts := by
  intro s t next halted
  obtain ⟨running, next⟩ := step_next_iff.mp next
  rcases exec_next_cases next with ⟨v, trap⟩ | rfl
  · rw [trap] at next
    obtain ⟨-, -, -, ⟨run, -⟩ | ⟨-, reason⟩⟩ := trapServiceIsBounded v _ _ next
    · have kept : t.run = .running := run.trans running
      rw [kept] at halted
      cases halted
    · exact .inl ⟨v, trap, reason⟩
  · cases record : unsupportedRecord (decode s.fetch) s.advance with
    | none =>
      have kept : (after (decode s.fetch) s.advance).run = .running := by rw [after, record]; exact running
      rw [kept] at halted
      cases halted
    | some r =>
      obtain ⟨low12, unsupported, rfl⟩ := unsupportedRecord_cases record
      have word := encode_of_decode_unsupported unsupported rfl
      have address : s.advance.pc - 1 = s.pc := BitVec.add_sub_cancel s.pc 1
      refine .inr ⟨⟨low12, unsupported⟩, ?_⟩
      rw [after, record, word, address]
      rfl

theorem State.raiseUnsupported_spec (s : State) (op : BitVec 4) (w : Word) :
    haltsUnsupported op w (s.pc - 1) s (s.raiseUnsupported op w) :=
  ⟨rfl, rfl, fun _ => rfl, rfl, rfl, fun _ => rfl, rfl, rfl⟩

/-- After the fetch-time increment the record's address is that of the fetch (R251). -/
theorem raise_after_fetch (s : State) (op : BitVec 4) (w : Word) :
    haltsUnsupported op w s.pc s.advance (s.advance.raiseUnsupported op w) := by
  have address : s.advance.pc - 1 = s.pc := BitVec.add_sub_cancel s.pc 1
  have raised := s.advance.raiseUnsupported_spec op w
  rwa [address] at raised

/-- Settles O39: the recorded word is the one RTI was decoded from. -/
theorem rtiRaisesUnsupportedOpcode : Obligations.RtiRaisesUnsupportedOpcode := by
  refine ⟨fun low12 s => ⟨_, exec_rti low12 s, s.raiseUnsupported_spec 0x8 _⟩, fun s running fixed => ?_⟩
  have decoded : decode s.fetch = .rti (bits s.fetch 0 12) := decode_rti_of_mask fixed
  have word : noneWord 0x8 (bits s.fetch 0 12) = s.fetch := encode_of_decode_unsupported (.inl rfl) decoded
  refine ⟨_, ?_, raise_after_fetch s 0x8 s.fetch⟩
  rw [step_of_running running, decoded, exec_rti, word]

/-- Settles O40: the recorded word is the one RES was decoded from. -/
theorem resRaisesUnsupportedOpcode : Obligations.ResRaisesUnsupportedOpcode := by
  refine ⟨fun low12 s => ⟨_, exec_res low12 s, s.raiseUnsupported_spec 0xD _⟩, fun s running fixed => ?_⟩
  have decoded : decode s.fetch = .res (bits s.fetch 0 12) := decode_res_of_mask fixed
  have word : noneWord 0xD (bits s.fetch 0 12) = s.fetch := encode_of_decode_unsupported (.inr rfl) decoded
  refine ⟨_, ?_, raise_after_fetch s 0xD s.fetch⟩
  rw [step_of_running running, decoded, exec_res, word]

end Sys2Proof.Machine
end

section
/-! The memory port's view of the step (20_memory.md sections 2 and 5): its transactions, a store seen by the next
fetch, and a load stored back. -/
namespace Sys2Proof.Machine

/-- The transactions of an instruction do to memory what its store does. -/
theorem apply_dataTransactions (i : Instr) (s : State) :
    (dataTransactions i s).foldl Transaction.apply s.mem
      = (storeOf i s).elim s.mem fun c => Memory.write s.mem c.1 c.2 := by
  cases i <;> rfl

theorem mem_of_next {i : Instr} {s t : State} (next : exec i s = .next t) :
    t.mem = (storeOf i s).elim s.mem fun c => Memory.write s.mem c.1 c.2 := by
  rcases exec_next_cases next with ⟨vect8, rfl⟩ | rfl
  · exact mem_of_no_store rfl next
  · rfl

/-- A STORE is the last transaction of its step. -/
theorem store_not_before_last (s : State) (a v : Word) : Transaction.store a v ∉ (stepTransactions s).dropLast := by
  rw [stepTransactions]
  cases decode s.fetch <;> simp [dataTransactions]

/-- Settles O43: the fetch changes nothing and the rest is the instruction's store. -/
theorem transactionsAccountForTheStep : Obligations.TransactionsAccountForTheStep := by
  intro s t next
  obtain ⟨-, next⟩ := step_next_iff.mp next
  refine ⟨?_, store_not_before_last s⟩
  calc t.mem = (storeOf (decode s.fetch) s.advance).elim s.mem fun c => Memory.write s.mem c.1 c.2 := mem_of_next next
    _ = (dataTransactions (decode s.fetch) s.advance).foldl Transaction.apply s.mem :=
      (apply_dataTransactions (decode s.fetch) s.advance).symm
    _ = (stepTransactions s).foldl Transaction.apply s.mem := rfl

/-- A store instruction goes on to the next one in a core that runs on (R120, R190 to R192). -/
theorem pc_run_of_store {i : Instr} {s t : State} {c : Word × Word} (store : storeOf i s = some c)
    (next : exec i s = .next t) : t.pc = s.pc ∧ t.run = s.run := by
  cases i with
  | st | sti | str =>
    rw [eq_after_of_next rfl next]
    exact ⟨rfl, rfl⟩
  | _ => cases store

/-- Settles O42: the next fetch is a load from the address stored to. -/
theorem storeIsSeenByTheNextFetch : Obligations.StoreIsSeenByTheNextFetch := by
  intro s t v next store
  obtain ⟨running, next⟩ := step_next_iff.mp next
  obtain ⟨pc, run⟩ := pc_run_of_store store next
  have fetched : t.fetch = v := by
    rw [State.fetch, pc, load_of_store store next, if_pos s.advance_pc]
  refine ⟨fetched, ?_⟩
  rw [step_of_running (run.trans running), fetched]

/-- A load of `dr` from `ea`: LD or LDR whose one transaction is LOAD(ea). -/
theorem load_instruction_dest {i : Instr} {s t : State} {dr : Reg} {ea : Word}
    (load : (∃ off9, i = .ld dr off9) ∨ ∃ base off6, i = .ldr dr base off6) (port : dataTransactions i s = [.load ea])
    (next : exec i s = .next t) : t.reg dr = s.load ea ∧ t.mem = s.mem := by
  rcases load with ⟨off9, rfl⟩ | ⟨base, off6, rfl⟩
  all_goals
    obtain rfl : _ = ea := by simpa [dataTransactions] using port
    rw [eq_after_of_next rfl next, after_reg]
    exact ⟨if_pos rfl, rfl⟩

/-- A store of `dr` to `ea`: ST or STR whose one transaction is STORE(ea, v). -/
theorem store_instruction_word {i : Instr} {s : State} {dr : Reg} {ea v : Word}
    (store : (∃ off9, i = .st dr off9) ∨ ∃ base off6, i = .str dr base off6)
    (port : dataTransactions i s = [.store ea v]) : storeOf i s = some (ea, v) ∧ v = s.reg dr := by
  rcases store with ⟨off9, rfl⟩ | ⟨base, off6, rfl⟩
  all_goals
    obtain ⟨rfl, rfl⟩ : _ = ea ∧ _ = v := by simpa [dataTransactions] using port
    exact ⟨rfl, rfl⟩

/-- Memory with one word written reads as before exactly when the word was there already. -/
theorem sameMem_iff_of_word {s u : State} {ea v : Word} (word : ∀ a, u.load a = if a = ea then v else s.load a) :
    sameMem s u ↔ s.load ea = v := by
  constructor
  · intro same
    rw [← same ea, word, if_pos rfl]
  · intro already a
    rw [word]
    split
    case isTrue here => rw [here, already]
    case isFalse => rfl

/-- Settles O41: the store writes the word of DR, which the load made the word of `ea` and LEA the address. -/
theorem loadThenStoreBackKeepsMemory : Obligations.LoadThenStoreBackKeepsMemory := by
  intro s t u dr ea v first second isStore port
  obtain ⟨-, first⟩ := step_next_iff.mp first
  obtain ⟨-, second⟩ := step_next_iff.mp second
  obtain ⟨store, value⟩ := store_instruction_word isStore port
  have stored : t.mem = s.mem → (sameMem s u ↔ s.load ea = t.reg dr) := by
    intro mem
    refine sameMem_iff_of_word fun a => ?_
    rw [load_of_store store second, value, State.advance_reg, State.advance_load, sameMem_of_mem_eq mem a]
  refine ⟨fun isLoad loads => ?_, fun off9 lea address => ?_⟩
  · obtain ⟨reg, mem⟩ := load_instruction_dest isLoad loads first
    exact (stored mem).mpr reg.symm
  · rw [lea] at first
    have next := eq_after_of_next rfl first
    have reg : t.reg dr = ea := by
      rw [next, after_reg, ← address]
      exact if_pos rfl
    rw [stored (by rw [next]; rfl), reg]

end Sys2Proof.Machine
end

section
/-! What an instruction but TRAP reads (10_state.md R21, R28; 20_memory.md R54): a state that differs from another
where the instruction does not read has the same destination value, mux and store. -/
namespace Sys2Proof.Machine

/-- The values an instruction computes are the same in two states that agree on what it loads. -/
theorem values_of_agreeOnLoads {i : Instr} {s s' : State} (agree : agreeOnLoads i s s') :
    destValue i s' = destValue i s ∧ pcMux i s' = pcMux i s ∧ storeOf i s' = storeOf i s ∧
      unsupportedRecord i s' = unsupportedRecord i s := by
  obtain ⟨regs, pc, cond, -, loads⟩ := agree
  have reg : ∀ r, s'.reg r = s.reg r := fun r => by rw [State.reg, State.reg, regs]
  have rel9 : ∀ off9, s'.pcOff9 off9 = s.pcOff9 off9 := fun off9 => by rw [State.pcOff9, State.pcOff9, pc]
  have based : ∀ base off6, s'.baseOff6 base off6 = s.baseOff6 base off6 := fun base off6 => by
    rw [State.baseOff6, State.baseOff6, reg]
  cases i with
  | ld | ldr =>
    have word := loads _ (List.mem_singleton.mpr rfl)
    simp [destValue, pcMux, storeOf, unsupportedRecord, pc, rel9, based, word]
  | ldi off9 =>
    have pointer := loads _ (List.mem_cons.mpr (.inl rfl))
    have word := loads _ (List.mem_cons.mpr (.inr (List.mem_singleton.mpr rfl)))
    simpa [destValue, pcMux, storeOf, unsupportedRecord, State.pointer, pc, rel9, pointer] using word
  | sti =>
    have pointer := loads _ (List.mem_cons.mpr (.inl rfl))
    simp [destValue, pcMux, storeOf, unsupportedRecord, reg, pc, rel9, pointer]
  | addReg | addImm | andReg | andImm | not | br | jmp | ret | jsr | jsrr | lea | st | str | trap | rti | res =>
    simp [destValue, pcMux, storeOf, unsupportedRecord, reg, pc, cond, rel9, based]

/-- Settles O44: the two states lead to the same values, written over what each had. -/
theorem execReadsOnlyTheLoadedWords : Obligations.ExecReadsOnlyTheLoadedWords := by
  intro i s s' t notTrap agree next
  obtain rfl := eq_after_of_next notTrap next
  obtain ⟨dest, mux, store, record⟩ := values_of_agreeOnLoads agree
  obtain ⟨regs, -, cond, ⟨run, reason, answers, calls⟩, -⟩ := agree
  refine ⟨after i s', exec_eq_after notTrap s', ?_, mux, ?_, ⟨?_, ?_, answers, calls⟩, fun a same => ?_⟩
  · simp only [after, dest, regs]
  · simp only [after, dest, cond]
  · simp only [after, record, run]
  · simp only [after, record, reason]
  · cases st : storeOf i s with
    | none =>
      rw [State.load, State.load, after_mem_of_none st, after_mem_of_none (store.trans st)]
      exact same
    | some c =>
      rw [after_load_of_some st, after_load_of_some (store.trans st), same]

/-- The values an instruction computes do not depend on a register that is no source of it. -/
theorem values_of_setReg {i : Instr} (s : State) {r : Reg} (v : Word) (free : r ∉ sourcesOf i) :
    destValue i (s.setReg r v) = destValue i s ∧ pcMux i (s.setReg r v) = pcMux i s ∧
      storeOf i (s.setReg r v) = storeOf i s ∧ unsupportedRecord i (s.setReg r v) = unsupportedRecord i s := by
  have reg : ∀ q ∈ sourcesOf i, (s.setReg r v).reg q = s.reg q := fun q source =>
    s.setReg_reg_other v fun same => free (same ▸ source)
  cases i with
  | br | ld | ldi | lea | jsr | trap | rti | res => exact ⟨rfl, rfl, rfl, rfl⟩
  | addReg | addImm | andReg | andImm | not | jmp | ret | jsrr | ldr | st | sti | str =>
    simp only [sourcesOf, List.forall_mem_cons] at reg
    simp [destValue, pcMux, storeOf, unsupportedRecord, State.pcOff9, State.baseOff6, reg]

/-- Settles O45: the register file differs in `r` alone, and there not if `r` is the destination. -/
theorem execReadsOnlyItsSourceRegisters : Obligations.ExecReadsOnlyItsSourceRegisters := by
  intro i s t r v notTrap free next
  obtain rfl := eq_after_of_next notTrap next
  obtain ⟨dest, mux, store, record⟩ := values_of_setReg s v free
  refine ⟨after i (s.setReg r v), exec_eq_after notTrap _, mux, ?_, ?_, ⟨?_, ?_, rfl, rfl⟩, fun q other => ?_, ?_⟩
  · simp only [after, dest, State.setReg_cond]
  · simp only [after, store, State.setReg_mem]
  · simp only [after, record, State.setReg_run]
  · simp only [after, record, State.setReg_haltReason]
  · rw [after_reg, after_reg, dest, s.setReg_reg_other v other]
  · rw [after_reg, after_reg, dest, State.setReg_reg_same]
    split
    case isTrue => rfl
    case isFalse => rfl

/-- The values an instruction computes do not depend on `cond`, but for BR's target. -/
theorem values_of_withCond {i : Instr} (s : State) (c : BitVec 3) (other : isBr i = false) :
    destValue i (s.withCond c) = destValue i s ∧ pcMux i (s.withCond c) = pcMux i s ∧
      storeOf i (s.withCond c) = storeOf i s ∧ unsupportedRecord i (s.withCond c) = unsupportedRecord i s := by
  cases i with
  | br => cases other
  | _ => exact ⟨rfl, rfl, rfl, rfl⟩

/-- An instruction that does not read `cond` leads, from a state with another one, to the same but for `cond`. -/
theorem after_withCond {i : Instr} (s : State) (c : BitVec 3) (other : isBr i = false) :
    (after i (s.withCond c)).withCond (after i s).cond = after i s := by
  obtain ⟨dest, mux, store, record⟩ := values_of_withCond s c other
  simp only [after, State.withCond] at dest mux store record ⊢
  simp only [dest, mux, store, record]

theorem after_cond_of_flagDest {i : Instr} {dr : Reg} (dest : flagDest i = some dr) (s : State) :
    (after i s).cond = flagBits (flagOf (destValue i s)) := by
  rw [after, dest, Option.elim_some]

theorem destOf_of_flagDest {i : Instr} {dr : Reg} (dest : flagDest i = some dr) : destOf i = some dr := by
  cases i with
  | jsr | jsrr => cases dest
  | _ => exact dest

/-- A service that sets P, about to be called by a TRAP. -/
def flagSettingTrap : State := { State.reset with svcAnswers := [.outcome ⟨false, Config.resetGpr, some .pos⟩] }

/-- Settles O12: the flags are those of the destination's value, and the rest of the state an instruction leads to
does not depend on `cond`. -/
theorem flagsComeOnlyFromTheDestination : Obligations.FlagsComeOnlyFromTheDestination := by
  refine ⟨fun v s => ⟨codeOf_flagBits v, rfl⟩, fun i s t dr dest next => ?_, fun i s t none notTrap next => ?_,
    ⟨0x20, flagSettingTrap, _, rfl, by decide⟩, fun i s t c other notTrap next => ?_⟩
  · have notTrap : isTrap i = false := by
      cases i with
      | trap => cases dest
      | _ => rfl
    obtain rfl := eq_after_of_next notTrap next
    rw [after_reg, if_pos (destOf_of_flagDest dest), after_cond_of_flagDest dest]
    exact codeOf_flagBits _
  · obtain rfl := eq_after_of_next notTrap next
    rw [after, none, Option.elim_none]
  · obtain rfl := eq_after_of_next notTrap next
    refine ⟨after i (s.withCond c), exec_eq_after notTrap _, after_withCond s c other, fun writes => ?_⟩
    obtain ⟨dr, dest⟩ := Option.ne_none_iff_exists'.mp writes
    have cond : (after i (s.withCond c)).cond = (after i s).cond := by
      obtain ⟨value, -⟩ := values_of_withCond s c other
      rw [after_cond_of_flagDest dest, after_cond_of_flagDest dest, value]
    rw [← after_withCond s c other, ← cond]
    rfl

end Sys2Proof.Machine
end
